-- ==== Sys2Proof/Machine/Params.lean ====
section
/-! DEFINITION. The implementation parameters of 00_scope.md R9, each a named constant (log entry 11: the spec calls the
source's literals unaudited, item I1 of 93). Word.lean makes the types of the widths; every other use is by name. -/

namespace Sys2Proof.Machine

/-- N_CELLS: LFSR length in cells. -/
@[simp] abbrev Param.nCells : Nat := 16

/-- TAP_A: first feedback tap. -/
def Param.tapA : Nat := 7

/-- TAP_B: second feedback tap. -/
def Param.tapB : Nat := 11

/-- OUT_CELL: the output cell. -/
def Param.outCell : Nat := 15

/-- LEN_IDX_WIDTH: width of the length-index input. -/
@[simp] abbrev Param.lenIdxWidth : Nat := 3

/-- THRESH_WIDTH: width of the lock-threshold input. -/
@[simp] abbrev Param.threshWidth : Nat := 16

/-- CNT_WIDTH: width of MATCH_CNT, ERR_BITS and COUNT_BITS. -/
@[simp] abbrev Param.cntWidth : Nat := 16

/-- CMD_WIDTH: width of the command word. -/
@[simp] abbrev Param.cmdWidth : Nat := 8

/-- RADDR_WIDTH: width of the register read address. -/
@[simp] abbrev Param.raddrWidth : Nat := 3

/-- RDATA_WIDTH: width of the register read data. -/
@[simp] abbrev Param.rdataWidth : Nat := 16

/-- SEED: the LFSR value after a reseed. -/
def Param.seed : BitVec Param.nCells := 0xFFFF

/-- LEN_TABLE, in the order the source lists it, index 0 first (R9, R10). Its entries are compared with COUNT_BITS. -/
def Param.lenTable : List (BitVec Param.cntWidth) := [1000, 5000, 10000, 30000, 50000, 65535]

/-- LEN_COUNT: the number of table entries. -/
def Param.lenCount : Nat := 6

end Sys2Proof.Machine
end

