-- ==== Sys2Proof/Word.lean ====
section
/-! DEFINITION. The types of the values of 00_scope.md R9 and R13, each by its own width parameter. -/

namespace Sys2Proof

open Machine

/-- The shift register, N_CELLS cells: bit i is cell[i] (R9, R22). -/
abbrev Lfsr := BitVec Param.nCells

/-- MATCH_CNT, ERR_BITS, COUNT_BITS and the lengths, CNT_WIDTH bits (R9). -/
abbrev Count := BitVec Param.cntWidth

/-- The lock threshold, THRESH_WIDTH bits (R9, R31). -/
abbrev Thresh := BitVec Param.threshWidth

/-- The command word on the CMD port, CMD_WIDTH bits (R9, R70). -/
abbrev CmdWord := BitVec Param.cmdWidth

/-- The measurement-length index, LEN_IDX_WIDTH bits (R9). -/
abbrev LenIdx := BitVec Param.lenIdxWidth

/-- The register read address, RADDR_WIDTH bits (R9). -/
abbrev RAddr := BitVec Param.raddrWidth

/-- The register read data, RDATA_WIDTH bits (R9). -/
abbrev RData := BitVec Param.rdataWidth

end Sys2Proof
end

