-- ==== Sys2Proof/Syntax.lean ====
section
/-! DEFINITION. The command set: one constructor per row of spec/opcode_table.json (30_encoding.md R72). -/

namespace Sys2Proof

/-- The core's "instructions" are the host commands of 30_encoding.md (R3, R72). The internal FSM actions (R76) have no
encoding: they are what NOP, the poll step, does. -/
inductive Instr where
  /-- No command: the poll step (R161). -/
  | nop
  /-- Start a measurement with the configuration on the ports (R162). -/
  | measure
  /-- End a running measurement (R167). -/
  | abort
  /-- Reseed the LFSR (R106). -/
  | sgReset
  /-- Advance the LFSR once (R107). -/
  | sgAdvance
  /-- Write `b` to cell[15]; `b` is CMD[0], one bit with no extension (R73, R108). -/
  | sgForce (b : Bool)
deriving DecidableEq, Repr

end Sys2Proof
end

