-- ==== Sys2Proof/WellFormed.lean ====
section
/-! DEFINITION. Which command words are legal: the field checks of format C (30_encoding.md R70, R74). Every term of
`Instr` is well formed by its type (SG.FORCE's operand is one bit), so the checks are on the three fields of a word. -/

namespace Sys2Proof

/-- The three fields of a command word (R70). -/
structure CommandFields where
  /-- OP, bits 7:4. -/
  op : BitVec 4
  /-- RSV, bits 3:1. -/
  rsv : BitVec 3
  /-- B, bit 0. -/
  b : Bool
deriving DecidableEq, Repr

/-- The fields of a word, by their bit positions (R70). -/
def CommandFields.ofWord (w : CmdWord) : CommandFields :=
  { op := w.extractLsb' 4 4, rsv := w.extractLsb' 1 3, b := w.getLsbD 0 }

/-- OP is one of the six operation codes 0x0 to 0x5 (R72, R74). -/
def CommandFields.opDefined (f : CommandFields) : Bool := decide (f.op.toNat ≤ 5)

/-- RSV is 0b000 (R70, R74). -/
def CommandFields.reservedClear (f : CommandFields) : Bool := f.rsv == 0

/-- B is 0 for every OP but that of SG.FORCE, 0x5 (R70, R74). -/
def CommandFields.operandPlaced (f : CommandFields) : Bool := !f.b || f.op == 5

/-- A legal command word: all three checks of R74 hold. -/
def CommandFields.wf (f : CommandFields) : Bool := f.opDefined && f.reservedClear && f.operandPlaced

end Sys2Proof
end

