-- ==== Sys2Proof/Decode.lean ====
section
/-! DEFINITION. From a command word to a command or a named rejection, and back (30_encoding.md R70 to R74). -/

namespace Sys2Proof

/-- Why a word is no command (R74). The three names are the model's own; the spec calls every such word illegal. -/
inductive DecodeError where
  /-- OP is 0x6 to 0xF. -/
  | undefinedOperation
  /-- RSV is not 0b000. -/
  | reservedBitsSet
  /-- B is 1 and OP is not 0x5. -/
  | operandNotAllowed
deriving DecidableEq, Repr

/-- OP, bits 7:4 of a word (R70). -/
def opField (w : CmdWord) : BitVec 4 := w.extractLsb' 4 4

/-- RSV, bits 3:1 of a word (R70). -/
def rsvField (w : CmdWord) : BitVec 3 := w.extractLsb' 1 3

/-- B, bit 0 of a word (R70, R73). -/
def operandField (w : CmdWord) : Bool := w.getLsbD 0

/-- A command that takes no operand: B must be 0 (R70). -/
def withoutOperand (b : Bool) (i : Instr) : Except DecodeError Instr :=
  if b then .error .operandNotAllowed else .ok i

/-- The command an operation code names, given B (R72). -/
def decodeOp (op : Nat) (b : Bool) : Except DecodeError Instr :=
  match op with
  | 0 => withoutOperand b .nop
  | 1 => withoutOperand b .measure
  | 2 => withoutOperand b .abort
  | 3 => withoutOperand b .sgReset
  | 4 => withoutOperand b .sgAdvance
  | 5 => .ok (.sgForce b)
  | _ => .error .undefinedOperation

/-- Decoding is total: each of the 256 words is one of the commands of R72 or is rejected by name (R74). -/
def decode (w : CmdWord) : Except DecodeError Instr :=
  if rsvField w = 0 then decodeOp (opField w).toNat (operandField w) else .error .reservedBitsSet

/-- The operation code of a command (R72). -/
def opOf : Instr → BitVec 4
  | .nop => 0x0
  | .measure => 0x1
  | .abort => 0x2
  | .sgReset => 0x3
  | .sgAdvance => 0x4
  | .sgForce _ => 0x5

/-- The B field of a command: SG.FORCE's operand, and 0 for every other (R70, R73). -/
def operandOf : Instr → Bool
  | .nop => false
  | .measure => false
  | .abort => false
  | .sgReset => false
  | .sgAdvance => false
  | .sgForce b => b

/-- The word of a command: OP, then RSV = 0b000, then B (R70, R72). -/
def encode (i : Instr) : CmdWord := (opOf i ++ (0 : BitVec 3)) ++ BitVec.ofBool (operandOf i)

/-- The CMD port value of an instruction given as `nbits` bits of `w`: every bit above `nbits` is 0, and CMD is 8 bits
wide (R70: the core has no other length). -/
def commandWord (nbits w : Nat) : CmdWord := BitVec.ofNat Machine.Param.cmdWidth (w % 2 ^ nbits)

/-- The instruction the decoder reads from a word of the opcode table. -/
def decodeTableWord (nbits w : Nat) : Option Instr :=
  match decode (commandWord nbits w) with
  | .ok i => some i
  | .error _ => none

end Sys2Proof
end

