-- ==== Sys2Proof/Config.lean ====
section
/-! DEFINITION. The free values: what the spec leaves open and the model must not choose. -/

namespace Sys2Proof.Config

/-- CLK_IN of the n-th step after the script of inputs has ended: a free draw with no law (R12, R122, item I7 of 93). -/
opaque freeClk : Nat → Bool

/-- DATA_IN of the n-th step after the script of inputs has ended: a free draw with no law (R12, R122, I7). -/
opaque freeData : Nat → Bool

/-- DESIGN CHOICE (log entry 7): LEN_TABLE has no entry for an index of 6 or 7 (R9, R32), which no state after RST holds
(R30); what TOTAL then is stays free. -/
opaque totalOutsideTable : LenIdx → Count

end Sys2Proof.Config
end

