-- ==== Sys2Proof/Machine/State.lean ====
section
/-! DEFINITION. The state: the registers of 10_state.md R20, the power-up condition of R160, and the inputs presented to
the coming steps; the reasons a step stops; the state after reset. -/

namespace Sys2Proof.Machine

/-- PHASE (R26): which wait the core is in. Codes 5, 6 and 7 are never written, so it is an enumeration (I10). -/
inductive Phase where
  | idle
  | syncWaitRise
  | syncWaitFall
  | countWaitRise
  | countWaitFall
deriving DecidableEq, Repr

/-- RESULT (R28, R200): the outcome of the last MEASURE. Codes 5, 6 and 7 are never written (I10). -/
inductive Result where
  | none
  | complete
  | aborted
  | invalidLenIdx
  | invalidThresh
deriving DecidableEq, Repr

/-- The input ports of one step (R13). -/
structure Ports where
  /-- RST: synchronous reset, active 1. -/
  rst : Bool
  /-- CMD: the command word. -/
  cmd : CmdWord
  /-- CFG_CLK_POL_IN. -/
  cfgClkPol : Bool
  /-- CFG_DATA_POL_IN. -/
  cfgDataPol : Bool
  /-- CFG_LEN_IDX_IN. -/
  cfgLenIdx : LenIdx
  /-- CFG_THRESH_IN. -/
  cfgThresh : Thresh
  /-- CLK_IN: raw external clock line level. -/
  clk : Bool
  /-- DATA_IN: raw external data line level. -/
  data : Bool
  /-- RADDR: register read address. -/
  raddr : RAddr
deriving DecidableEq, Repr

/-- The registers: "The state of the BERT core is exactly the registers in the table" (R20). -/
structure Regs where
  /-- LFSR: the shift register (R21, R22). -/
  lfsr : Lfsr
  /-- MATCH_CNT: consecutive matches (R23). -/
  matchCnt : Count
  /-- ERR_BITS: live error-bits counter (R24). -/
  errBits : Count
  /-- COUNT_BITS: live counted-bits counter (R25). -/
  countBits : Count
  /-- PHASE (R26). -/
  phase : Phase
  /-- LOCK: the lock indicator (R27). -/
  lock : Bool
  /-- RESULT (R28). -/
  result : Result
  /-- CLK_POL latch (R29). -/
  clkPol : Bool
  /-- DATA_POL latch (R29). -/
  dataPol : Bool
  /-- LEN_IDX latch (R30). -/
  lenIdx : LenIdx
  /-- THRESH latch (R31). -/
  thresh : Thresh
deriving DecidableEq, Repr

/-- The machine: its registers, whether RST has been seen since power-up, and what its environment presents to the coming
steps. The last three fields are the model's own (log entries 1 and 2). -/
structure State where
  /-- The registers of R20. -/
  regs : Regs
  /-- Whether a step with RST = 1 has happened since power-up (R160). -/
  rstSeen : Bool
  /-- The port values of the coming step. -/
  ports : Ports
  /-- The port values of the steps after it, the nearest first. -/
  script : List Ports
  /-- How many free draws of (CLK_IN, DATA_IN) have been taken. -/
  draws : Nat
deriving DecidableEq, Repr

/-- The core raises no exception and has no trap: "No command and no FSM action can fault in the core" (R201). So there
is no fault reason, and no step raises one. -/
inductive Fault where
deriving DecidableEq, Repr

/-- Why the model gives a step no meaning (R206). -/
inductive Refusal where
  /-- Raised by `exec` for a command whose meaning is not written. Safe. No arm of this model uses it. -/
  | notModelled (mnemonic : String)
  /-- BEFORE_RESET, raised by `step`: a step with RST = 0 before the first RST = 1 after power-up (R206, R231). Safe. -/
  | beforeReset
  /-- ILLEGAL_COMMAND, raised by `step`: CMD is one of the 249 illegal words (R74, R206). Safe. -/
  | illegalCommand
  /-- COMMAND_WHILE_BUSY, raised by MEASURE and SG.* while PHASE is not IDLE (R75, R206). Safe. -/
  | commandWhileBusy
deriving DecidableEq, Repr

/-- The registers after RST (R38); the LFSR takes the seed, 0xFFFF. -/
def Regs.reset : Regs :=
  { lfsr := Param.seed, matchCnt := 0, errBits := 0, countBits := 0, phase := .idle, lock := false, result := .none,
    clkPol := false, dataPol := false, lenIdx := 0, thresh := 0 }

/-- DESIGN CHOICE (log entry 3): a port record with no reset, no command and every level and value 0. -/
def Ports.quiet : Ports :=
  { rst := false, cmd := 0x00, cfgClkPol := false, cfgDataPol := false, cfgLenIdx := 0, cfgThresh := 0, clk := false,
    data := false, raddr := 0 }

/-- The machine right after a step with RST = 1 (R38, R230). The inputs of the coming steps are the model's choice
(log entry 3). -/
def State.reset : State :=
  { regs := Regs.reset, rstSeen := true, ports := Ports.quiet, script := [], draws := 0 }

end Sys2Proof.Machine
end

