-- ==== Sys2Proof/Machine/Ops.lean ====
section
/-! DEFINITION. The named operations: register writes, the SequenceGenerator primitives (R101 to R105), the shared ends of a
measurement, the fetch of a command and the advance of the inputs. The core has no trap, so there is no exception entry and
no return from one (R201, R209, R210); what an abnormal outcome writes is `endMeasurement` and `setResult`. -/

namespace Sys2Proof.Machine

/-! ### Register writes -/

/-- `LFSR <- v`. -/
def Regs.setLfsr (v : Lfsr) (r : Regs) : Regs := { r with lfsr := v }

/-- `MATCH_CNT <- v`. -/
def Regs.setMatchCnt (v : Count) (r : Regs) : Regs := { r with matchCnt := v }

/-- `ERR_BITS <- v`. -/
def Regs.setErrBits (v : Count) (r : Regs) : Regs := { r with errBits := v }

/-- `COUNT_BITS <- v`. -/
def Regs.setCountBits (v : Count) (r : Regs) : Regs := { r with countBits := v }

/-- `PHASE <- v`. -/
def Regs.setPhase (v : Phase) (r : Regs) : Regs := { r with phase := v }

/-- `LOCK <- v`. -/
def Regs.setLock (v : Bool) (r : Regs) : Regs := { r with lock := v }

/-- `RESULT <- v`. -/
def Regs.setResult (v : Result) (r : Regs) : Regs := { r with result := v }

/-- `CLK_POL <- cp; DATA_POL <- dp; LEN_IDX <- li; THRESH <- th` (R162). -/
def Regs.setLatches (cp dp : Bool) (li : LenIdx) (th : Thresh) (r : Regs) : Regs :=
  { r with clkPol := cp, dataPol := dp, lenIdx := li, thresh := th }

/-- The state with other registers. -/
def State.setRegs (r : Regs) (s : State) : State := { s with regs := r }

/-- The state with other port values for the coming step. -/
def State.setPorts (p : Ports) (s : State) : State := { s with ports := p }

/-! ### SequenceGenerator primitives -/

/-- `v[i] <- b`: the value with bit `i` replaced. -/
def setBit (v : Lfsr) (i : Nat) (b : Bool) : Lfsr :=
  if b then v ||| BitVec.twoPow Param.nCells i else v &&& ~~~(BitVec.twoPow Param.nCells i)

/-- `fb(L) = L[TAP_A] XOR L[TAP_B]` (R101). -/
def feedback (l : Lfsr) : Bool := l.getLsbD Param.tapA ^^ l.getLsbD Param.tapB

/-- `advance()`: `LFSR <- LFSR[14:0] ++ f` (R102). -/
def advance (l : Lfsr) : Lfsr := l.extractLsb' 0 (Param.nCells - 1) ++ BitVec.ofBool (feedback l)

/-- `peek()`: LFSR[15] (R103). -/
def peek (l : Lfsr) : Bool := l.getLsbD Param.outCell

/-- `force_override(b)`: `LFSR[15] <- b` (R104). -/
def forceOverride (b : Bool) (l : Lfsr) : Lfsr := setBit l Param.outCell b

/-- `reset()`: the seed, reading nothing (R105). -/
def reseed : Lfsr := Param.seed

/-- State k of R110: the LFSR after k advances from the seed. -/
def seqState : Nat → Lfsr
  | 0 => reseed
  | k + 1 => advance (seqState k)

/-- e(k): the k-th expected bit from the seed (R110, 95_test_vectors.md). -/
def seqBit (k : Nat) : Bool := peek (seqState k)

/-! ### Outcomes of a measurement -/

/-- A measurement ends with the code `code`: `PHASE <- IDLE; RESULT <- code` (R165, R167, R209). -/
def endMeasurement (code : Result) (r : Regs) : Regs := (r.setPhase .idle).setResult code

/-! ### The step's surroundings -/

/-- The command word of the coming step: the core reads CMD once in every step (R71). -/
def fetch (s : State) : CmdWord := s.ports.cmd

/-- A step with RST = 1: every register takes its value of R38, whatever the other ports say (R230). -/
def applyReset (s : State) : State := { s with regs := Regs.reset, rstSeen := true }

/-- The port values of a step after the script has ended (log entry 2): the host issues nothing (R71: CMD = 0x00), holds
its other ports, and CLK_IN and DATA_IN are free draws (R12, R122). -/
def undrivenPorts (held : Ports) (draw : Nat) : Ports :=
  { held with rst := false, cmd := 0x00, clk := Config.freeClk draw, data := Config.freeData draw }

/-- The inputs move on to the next step. -/
def nextInputs (s : State) : State :=
  match s.script with
  | p :: ps => { s with ports := p, script := ps }
  | [] => { s with ports := undrivenPorts s.ports s.draws, draws := s.draws + 1 }

/-- After a step has run, the inputs of the next one stand on the ports. A refusal stays what it is: the run ends with the
refused mark (R206). -/
def thenNextInputs : Host.Outcome State Fault Refusal → Host.Outcome State Fault Refusal
  | .next s => .next (nextInputs s)
  | .fault f => .fault f
  | .refused r => .refused r

/-- The state at power-up (R39, R231): no RST has been seen and the registers hold any values `r`, on which the model
assumes nothing. -/
def State.powerUp (r : Regs) (p : Ports) (ps : List Ports) : State :=
  { regs := r, rstSeen := false, ports := p, script := ps, draws := 0 }

end Sys2Proof.Machine
end

