-- ==== Sys2Proof/Machine/Operands.lean ====
section
/-! DEFINITION. The operands: the logical levels (R120, R121), the sampled bit (R124), the configuration on the ports (R162)
and the measurement length (R32). SG.FORCE's operand is in its constructor (R73). -/

namespace Sys2Proof.Machine

/-- `lc = CLK_IN XOR CLK_POL` (R120). -/
def logicalClock (p : Ports) (r : Regs) : Bool := p.clk ^^ r.clkPol

/-- `ld = DATA_IN XOR DATA_POL` (R121). -/
def logicalData (p : Ports) (r : Regs) : Bool := p.data ^^ r.dataPol

/-- The sampled bit: ld of the same step in which the rise wait completes (R124). -/
def sampledBit (p : Ports) (r : Regs) : Bool := logicalData p r

/-- `LEN_TABLE[i]` (R9, R10, R32); free where the table has no entry (log entry 7). -/
def lengthAt (i : LenIdx) : Count := (Param.lenTable[i.toNat]?).getD (Config.totalOutsideTable i)

/-- TOTAL, the measurement length: a view of LEN_IDX, not a register (R32). -/
def total (r : Regs) : Count := lengthAt r.lenIdx

/-- CFG_LEN_IDX_IN is outside the table (R163). -/
def lenIdxInvalid (p : Ports) : Bool := decide (Param.lenCount ≤ p.cfgLenIdx.toNat)

/-- CFG_THRESH_IN is 0 (R163). -/
def threshInvalid (p : Ports) : Bool := p.cfgThresh == 0

end Sys2Proof.Machine
end

