-- ==== Sys2Proof/Machine/Flags.lean ====
section
/-! DEFINITION. The status flags, the STATUS and CONFIG views, the outputs and the register read port (R33, R34, R37, R51,
R52, R109). All are functions of the state at the start of a step and change nothing. -/

namespace Sys2Proof.Machine

/-- The code of a PHASE value (R26). -/
def Phase.code : Phase → BitVec 3
  | .idle => 0
  | .syncWaitRise => 1
  | .syncWaitFall => 2
  | .countWaitRise => 3
  | .countWaitFall => 4

/-- The code of a RESULT value (R200). -/
def Result.code : Result → BitVec 3
  | .none => 0
  | .complete => 1
  | .aborted => 2
  | .invalidLenIdx => 3
  | .invalidThresh => 4

/-- BUSY: 1 if PHASE != IDLE (R33). -/
def busy (r : Regs) : Bool := r.phase != .idle

/-- EXPECTED: the current expected bit, LFSR[15] (R33). -/
def expected (r : Regs) : Bool := peek r.lfsr

/-- STATUS, register 0: `zext_16(RESULT ++ PHASE ++ LFSR[15] ++ LOCK ++ (PHASE != 0))` (R33). -/
def statusView (r : Regs) : RData :=
  (r.result.code ++ r.phase.code ++ BitVec.ofBool (expected r) ++ BitVec.ofBool r.lock ++
    BitVec.ofBool (busy r)).setWidth Param.rdataWidth

/-- CONFIG, register 5: CLK_POL in bit 0, DATA_POL in bit 1, LEN_IDX in 4:2, the rest 0 (R34). -/
def configView (r : Regs) : RData :=
  (r.lenIdx ++ BitVec.ofBool r.dataPol ++ BitVec.ofBool r.clkPol).setWidth Param.rdataWidth

/-- `RegRead(a)`: every one of the eight addresses holds one register (R51). -/
def regRead (a : RAddr) (r : Regs) : RData :=
  match a.toNat with
  | 0 => statusView r
  | 1 => r.lfsr.setWidth Param.rdataWidth
  | 2 => r.matchCnt.setWidth Param.rdataWidth
  | 3 => r.errBits.setWidth Param.rdataWidth
  | 4 => r.countBits.setWidth Param.rdataWidth
  | 5 => configView r
  | 6 => r.thresh.setWidth Param.rdataWidth
  | _ => (total r).setWidth Param.rdataWidth

/-- RDATA: the register at RADDR in the state at the start of the step (R52). -/
def rdata (s : State) : RData := regRead s.ports.raddr s.regs

/-- LOCK_OUT, always equal to LOCK (R13, R27). -/
def lockOut (s : State) : Bool := s.regs.lock

/-- BUSY_OUT, equal to STATUS.BUSY (R13). -/
def busyOut (s : State) : Bool := busy s.regs

/-- EXPECTED_OUT, the current expected bit (R13, R109). -/
def expectedOut (s : State) : Bool := expected s.regs

end Sys2Proof.Machine
end

