-- ==== Sys2Proof/Machine/SequenceGenerator.lean ====
section
/-! DEFINITION. The SequenceGenerator commands, legal in IDLE only (40_sequence_generator.md R106 to R108). -/

namespace Sys2Proof.Machine

/-- A command that is legal only while PHASE = IDLE: its effect on the registers there, and the refusal
COMMAND_WHILE_BUSY elsewhere (R75, R206). -/
def whenIdle (effect : Regs → Regs) (s : State) : Host.Outcome State Fault Refusal :=
  if busy s.regs then .refused .commandWhileBusy else .next (s.setRegs (effect s.regs))

/-- SG.RESET: `reset()` (R106). -/
def execSgReset (s : State) : Host.Outcome State Fault Refusal :=
  whenIdle (fun r => r.setLfsr reseed) s

/-- SG.ADVANCE: `advance()` (R107). -/
def execSgAdvance (s : State) : Host.Outcome State Fault Refusal :=
  whenIdle (fun r => r.setLfsr (advance r.lfsr)) s

/-- SG.FORCE b: `force_override(b)` (R108). -/
def execSgForce (b : Bool) (s : State) : Host.Outcome State Fault Refusal :=
  whenIdle (fun r => r.setLfsr (forceOverride b r.lfsr)) s

end Sys2Proof.Machine
end

