-- ==== Sys2Proof/Machine/BitSampler.lean ====
section
/-! DEFINITION. The BitSampler's two waits (41_bit_sampler.md R123, R125): level tests with no timeout. -/

namespace Sys2Proof.Machine

/-- The rise wait: HOLD while lc = 0, and the phase's bit action in the first step with lc = 1 (R123). -/
def riseWait (p : Ports) (action : Regs → Regs) (r : Regs) : Regs :=
  if logicalClock p r then action r else r

/-- The fall wait: HOLD while lc = 1, and the phase's fall action in the first step with lc = 0 (R125). -/
def fallWait (p : Ports) (action : Regs → Regs) (r : Regs) : Regs :=
  if logicalClock p r then r else action r

end Sys2Proof.Machine
end

