-- ==== Sys2Proof/Machine/SyncEngine.lean ====
section
/-! DEFINITION. The SyncEngine's actions (42_sync_engine.md R141 to R144). -/

namespace Sys2Proof.Machine

/-- SYNC-BIT steps 2 to 4 (R141): compare with the expected bit; count a match, or restart the count and force cell[15] to
the complement of the expected bit. The override is kept although nothing can observe it (R142, R146, C2 of 90). -/
def syncCompare (bit : Bool) (r : Regs) : Regs :=
  if bit == peek r.lfsr then r.setMatchCnt (r.matchCnt + 1)
  else (r.setMatchCnt 0).setLfsr (forceOverride (!peek r.lfsr) r.lfsr)

/-- SYNC-BIT step 6, the lock transition (R143): the two values are compared as numbers, their widths being two parameters. -/
def lockTransition (r : Regs) : Regs := if r.matchCnt.toNat == r.thresh.toNat then r.setLock true else r

/-- SYNC-BIT: the comparison, the advance, the lock test, and PHASE <- SYNC_WAIT_FALL, in the order of R141. -/
def syncBit (bit : Bool) (r : Regs) : Regs :=
  let compared := syncCompare bit r
  let advanced := compared.setLfsr (advance compared.lfsr)
  (lockTransition advanced).setPhase .syncWaitFall

/-- SYNC-FALL: to the counting phase when locked, else to the next sync bit (R144). -/
def syncFall (r : Regs) : Regs := r.setPhase (if r.lock then .countWaitRise else .syncWaitRise)

end Sys2Proof.Machine
end

