-- ==== Sys2Proof/Machine/MeasurementController.lean ====
section
/-! DEFINITION. The MeasurementController: the counting phase, the poll step, NOP, MEASURE and ABORT
(43_measurement_controller.md R160 to R167). -/

namespace Sys2Proof.Machine

/-- COUNT-BIT (R164): count an error on a mismatch (no override), advance, count the bit, PHASE <- COUNT_WAIT_FALL. -/
def countBit (bit : Bool) (r : Regs) : Regs :=
  let judged := if bit != peek r.lfsr then r.setErrBits (r.errBits + 1) else r
  let advanced := judged.setLfsr (advance judged.lfsr)
  (advanced.setCountBits (advanced.countBits + 1)).setPhase .countWaitFall

/-- COUNT-FALL and completion (R165). -/
def countFall (r : Regs) : Regs :=
  if r.countBits == total r then endMeasurement .complete r else r.setPhase .countWaitRise

/-- The poll step: the FSM action of PHASE, if the logical clock allows it (R160, R76). -/
def poll (p : Ports) (r : Regs) : Regs :=
  match r.phase with
  | .idle => r
  | .syncWaitRise => riseWait p (syncBit (sampledBit p r)) r
  | .syncWaitFall => fallWait p syncFall r
  | .countWaitRise => riseWait p (countBit (sampledBit p r)) r
  | .countWaitFall => fallWait p countFall r

/-- The valid MEASURE: latch the configuration, reseed, clear the counters, LOCK and RESULT, enter LOCKING (R162). -/
def startMeasurement (p : Ports) (r : Regs) : Regs :=
  (((((((r.setLatches p.cfgClkPol p.cfgDataPol p.cfgLenIdx p.cfgThresh).setLfsr reseed).setMatchCnt 0).setErrBits
    0).setCountBits 0).setLock false).setResult .none).setPhase .syncWaitRise

/-- The invalid MEASURE writes RESULT only; the length index is checked first (R163, R208). -/
def invalidConfiguration (p : Ports) (r : Regs) : Regs :=
  r.setResult (if lenIdxInvalid p then .invalidLenIdx else .invalidThresh)

/-- NOP: no command effect; the step is a poll step (R161). -/
def execNop (s : State) : Host.Outcome State Fault Refusal := .next (s.setRegs (poll s.ports s.regs))

/-- MEASURE, with the configuration on the ports of this step (R162, R163). -/
def execMeasure (s : State) : Host.Outcome State Fault Refusal :=
  whenIdle (fun r => if lenIdxInvalid s.ports || threshInvalid s.ports then invalidConfiguration s.ports r
    else startMeasurement s.ports r) s

/-- ABORT: ends a measurement in any phase, and does nothing in IDLE (R167). -/
def execAbort (s : State) : Host.Outcome State Fault Refusal :=
  .next (s.setRegs (if busy s.regs then endMeasurement .aborted s.regs else s.regs))

end Sys2Proof.Machine
end

