-- ==== Sys2Proof/Machine/Dispatch.lean ====
section
/-! DEFINITION. The meaning of each command, one arm a constructor. -/

namespace Sys2Proof.Machine

/-- The effect of a command in the step that presents it (R71, R160). -/
def exec (i : Instr) (s : State) : Host.Outcome State Fault Refusal :=
  match i with
  | .nop => Sys2Proof.Machine.execNop s
  | .measure => Sys2Proof.Machine.execMeasure s
  | .abort => Sys2Proof.Machine.execAbort s
  | .sgReset => Sys2Proof.Machine.execSgReset s
  | .sgAdvance => Sys2Proof.Machine.execSgAdvance s
  | .sgForce b => Sys2Proof.Machine.execSgForce b s

end Sys2Proof.Machine
end

