-- ==== Sys2Proof/Machine/Step.lean ====
section
/-! DEFINITION. One core step (43_measurement_controller.md R160; the order is 60_exceptions.md R208). -/

namespace Sys2Proof.Machine

/-- RST first; then the refusal before the first RST; then the command on CMD, refused if illegal. The busy refusal is in
the commands' meanings, where ABORT and NOP have none. -/
def step (s : State) : Host.Outcome State Fault Refusal :=
  if s.ports.rst then .next (nextInputs (applyReset s))
  else if s.rstSeen then
    match decode (fetch s) with
    | .ok i => thenNextInputs (exec i s)
    | .error _ => .refused .illegalCommand
  else .refused .beforeReset

/-- The state whose next step runs the given word as its command: the word stands on CMD, RST is 0 and a reset has been
seen (log entry 4). -/
def State.withFetchWord (s : State) (nbits w : Nat) : State :=
  { s with rstSeen := true, ports := { s.ports with rst := false, cmd := commandWord nbits w } }

end Sys2Proof.Machine
end

