-- ==== Sys2Proof/Machine/Assembler.lean ====
section
/-! DEFINITION. Assembler text (30_encoding.md R77): one command a line, its mnemonic in upper case, SG.FORCE with a literal
0 or 1, and ';' beginning a comment. Text is a list of characters. -/

namespace Sys2Proof.Machine

/-- A command as R77 writes it. -/
def assemblyText : Instr → List Char
  | .nop => ['N', 'O', 'P']
  | .measure => ['M', 'E', 'A', 'S', 'U', 'R', 'E']
  | .abort => ['A', 'B', 'O', 'R', 'T']
  | .sgReset => ['S', 'G', '.', 'R', 'E', 'S', 'E', 'T']
  | .sgAdvance => ['S', 'G', '.', 'A', 'D', 'V', 'A', 'N', 'C', 'E']
  | .sgForce false => ['S', 'G', '.', 'F', 'O', 'R', 'C', 'E', ' ', '0']
  | .sgForce true => ['S', 'G', '.', 'F', 'O', 'R', 'C', 'E', ' ', '1']

/-- The line without its comment. -/
def withoutComment : List Char → List Char
  | [] => []
  | c :: cs => if c = ';' then [] else c :: withoutComment cs

/-- The words of a line, `word` holding the letters of the one being read, last first. DESIGN CHOICE (log entry 13): words
are separated by blanks, as many as stand there. -/
def wordsFrom (word : List Char) : List Char → List (List Char)
  | [] => if word.isEmpty then [] else [word.reverse]
  | c :: cs =>
    if c = ' ' then (if word.isEmpty then wordsFrom [] cs else word.reverse :: wordsFrom [] cs)
    else wordsFrom (c :: word) cs

/-- The seven texts a line can hold. -/
def allCommands : List Instr := [.nop, .measure, .abort, .sgReset, .sgAdvance, .sgForce false, .sgForce true]

/-- The command a line of assembler text writes, or none where it writes none. -/
def assembleLine (line : List Char) : Option Instr :=
  allCommands.find? (fun i => wordsFrom [] (assemblyText i) == wordsFrom [] (withoutComment line))

end Sys2Proof.Machine
end

