-- ==== Sys2Proof/Machine/Run.lean ====
section
/-! DEFINITION. Runs: the step on given port values, a run over a list of them, and the streams a signal source presents
(R12, R59, R79, R129). A claim about a run is over every list of port values. -/

namespace Sys2Proof.Machine

/-- The step in which the environment presents `p`. -/
def stepOn (p : Ports) (s : State) : Host.Outcome State Fault Refusal := step (s.setPorts p)

/-- The steps in which the environment presents `ps`, in order; a refused step ends the run (R206). -/
def runOn : List Ports → State → Host.Outcome State Fault Refusal
  | [], s => .next s
  | p :: ps, s =>
    match stepOn p s with
    | .next s' => runOn ps s'
    | .fault f => .fault f
    | .refused r => .refused r

/-- The state to which the port values `ps` will be presented in the coming steps. -/
def State.present (ps : List Ports) (s : State) : State :=
  match ps with
  | [] => s
  | p :: rest => { s with ports := p, script := rest ++ s.script }

/-- A poll step's ports: no reset, NOP, and the two levels; every other port as in `held`. -/
def pollPorts (held : Ports) (clk data : Bool) : Ports :=
  { held with rst := false, cmd := 0x00, clk := clk, data := data }

/-- One cycle of the logical clock as the core polls it, when the signal source keeps its duty (R129): lc = 1 in at least one
step, the first of them with DATA_IN = `bit`, then lc = 0 in at least one step. DATA_IN in the other steps is arbitrary. -/
structure PolledBit where
  /-- DATA_IN in the first step with lc = 1. -/
  bit : Bool
  /-- DATA_IN in the further steps with lc = 1. -/
  moreHigh : List Bool
  /-- DATA_IN in the first step with lc = 0. -/
  low : Bool
  /-- DATA_IN in the further steps with lc = 0. -/
  moreLow : List Bool
deriving DecidableEq, Repr

/-- The steps of one clock cycle, for a latched CLK_POL = `cp`: lc = 1 is CLK_IN = NOT cp (R120). -/
def PolledBit.steps (held : Ports) (cp : Bool) (b : PolledBit) : List Ports :=
  (b.bit :: b.moreHigh).map (pollPorts held (!cp)) ++ (b.low :: b.moreLow).map (pollPorts held cp)

/-- The steps of a list of clock cycles. -/
def polledSteps (held : Ports) (cp : Bool) (bs : List PolledBit) : List Ports := bs.flatMap (PolledBit.steps held cp)

/-- What the signal source presents after a MEASURE: poll steps with lc = 0, if the logical clock is 0 then (as R234 advises),
with arbitrary DATA_IN, and after them the clock cycles. With `low` empty the first poll step has lc = 1. -/
def streamSteps (held : Ports) (cp : Bool) (low : List Bool) (bs : List PolledBit) : List Ports :=
  low.map (pollPorts held cp) ++ polledSteps held cp bs

/-- One clock cycle with one step a level, as R79's BITS and R173 have it. -/
def idealBit (b : Bool) : PolledBit := { bit := b, moreHigh := [], low := b, moreLow := [] }

/-- The k-th sampled bit of a list of clock cycles under DATA_POL = `dp` (R16, R121). -/
def sampledAt (dp : Bool) (bs : List PolledBit) (k : Nat) : Bool := (bs[k]?.map PolledBit.bit).getD false ^^ dp

/-- After n sync bits of the sampled stream `f`, how many of the last ones match their expected bits without a gap
(R23, R141, R148). -/
def consecutiveMatches (f : Nat → Bool) : Nat → Nat
  | 0 => 0
  | n + 1 => if f n = seqBit n then consecutiveMatches f n + 1 else 0

/-- The stream `f` makes the core lock with its S-th sync bit under the threshold `th` (R143, R148). -/
def LocksAfter (f : Nat → Bool) (th S : Nat) : Prop :=
  consecutiveMatches f S = th ∧ ∀ n, n < S → consecutiveMatches f n ≠ th

/-- How many of the n sampled bits from the S-th on differ from their expected bits (R169). -/
def mismatches (f : Nat → Bool) (S : Nat) : Nat → Nat
  | 0 => 0
  | n + 1 => mismatches f S n + if f (S + n) = seqBit (S + n) then 0 else 1

/-- How many maximal runs of 1s begin in a sequence of lc levels, where `high` says whether the level before it was 1
(R126). -/
def runsOfOnes : Bool → List Bool → Nat
  | _, [] => 0
  | high, l :: ls => (if l && !high then 1 else 0) + runsOfOnes l ls

/-- n advances of the LFSR. -/
def advances : Nat → Lfsr → Lfsr
  | 0, l => l
  | n + 1, l => advances n (advance l)

end Sys2Proof.Machine
end

