-- ==== Sys2Proof/Machine/HostScript.lean ====
section
/-! DEFINITION. The host's notations: pseudo-instructions (30_encoding.md R78), host-script lines (R79), the host's order of
use (R233) and its check before it computes the BER ratio (R172, R205). None of them is a port or a state of the core. -/

namespace Sys2Proof.Machine

/-- The pseudo-instructions of R78 with a fixed expansion. -/
inductive Pseudo where
  /-- `SG.ADVANCE n`. -/
  | sgAdvance (n : Nat)
  /-- `SG.SEED`. -/
  | sgSeed
  /-- `WAIT n`. -/
  | wait (n : Nat)
deriving DecidableEq, Repr

/-- A repetition count is at least 1 (R78). -/
def Pseudo.wf : Pseudo → Bool
  | .sgAdvance n => decide (1 ≤ n)
  | .sgSeed => true
  | .wait n => decide (1 ≤ n)

/-- The commands a pseudo-instruction stands for, issued in consecutive steps (R78). -/
def Pseudo.expand : Pseudo → List Instr
  | .sgAdvance n => List.replicate n .sgAdvance
  | .sgSeed => [.sgReset]
  | .wait n => List.replicate n .nop

/-- `SG.FLIP` has no fixed expansion: the host writes SG.FORCE b with b = NOT STATUS.EXPECTED, read in the step before
(R78). -/
def flipCommand (s : State) : Instr := .sgForce (!(statusView s.regs).getLsbD 2)

/-- The registers of the read space by name (R51). -/
inductive ReadReg where
  | status
  | lfsr
  | matchCnt
  | errBits
  | countBits
  | config
  | thresh
  | total
deriving DecidableEq, Repr

/-- The address of a register of the read space (R51). -/
def ReadReg.addr : ReadReg → RAddr
  | .status => 0
  | .lfsr => 1
  | .matchCnt => 2
  | .errBits => 3
  | .countBits => 4
  | .config => 5
  | .thresh => 6
  | .total => 7

/-- The lines of the host-script notation (R79). `STREAM k f` is `streamLine k f`. -/
inductive HostLine where
  /-- `RST`. -/
  | rst
  /-- `CFG cp dp idx th`: held until the next CFG. -/
  | cfg (cp dp : Bool) (idx : LenIdx) (th : Thresh)
  /-- `<command> @ clk data`. -/
  | commandAt (i : Instr) (clk data : Bool)
  /-- `BITS "s"`. -/
  | bits (s : List Bool)
  /-- `IBITS "s"`. -/
  | ibits (s : List Bool)
  /-- `READ <reg>`. -/
  | read (reg : ReadReg)
deriving DecidableEq, Repr

/-- `<command>`: CLK_IN = 0 and DATA_IN = 0 (R79). -/
def commandLine (i : Instr) : HostLine := .commandAt i false false

/-- `STREAM k f`: as BITS for f(0), f(1), ... f(k-1) (R79). -/
def streamLine (k : Nat) (f : Nat → Bool) : HostLine := .bits ((List.range k).map f)

/-- The lines of a pseudo-instruction: its commands with CLK_IN and DATA_IN at 0 (R78). -/
def pseudoLines (p : Pseudo) : List HostLine := p.expand.map commandLine

/-- The two steps of one character of BITS (`first` = 1) or IBITS (`first` = 0): CLK_IN is `first`, then its complement,
with DATA_IN = b in both (R79). -/
def bitSteps (held : Ports) (first : Bool) (b : Bool) : List Ports :=
  [pollPorts held first b, pollPorts held (!first) b]

/-- The configuration the host holds after a line (R79). -/
def holdAfter (held : Ports) : HostLine → Ports
  | .cfg cp dp idx th => { held with cfgClkPol := cp, cfgDataPol := dp, cfgLenIdx := idx, cfgThresh := th }
  | .rst => held
  | .commandAt _ _ _ => held
  | .bits _ => held
  | .ibits _ => held
  | .read _ => held

/-- The steps of a line (R79): CFG and READ take none. -/
def lineSteps (held : Ports) : HostLine → List Ports
  | .rst => [{ held with rst := true }]
  | .cfg _ _ _ _ => []
  | .commandAt i clk data => [{ held with rst := false, cmd := encode i, clk := clk, data := data }]
  | .bits s => s.flatMap (bitSteps held true)
  | .ibits s => s.flatMap (bitSteps held false)
  | .read _ => []

/-- The steps of a script, the configuration ports holding what the last CFG set. -/
def scriptSteps : Ports → List HostLine → List Ports
  | _, [] => []
  | held, l :: ls => lineSteps held l ++ scriptSteps (holdAfter held l) ls

/-- What a line reads in the state the steps so far have left: `READ <reg>` one register, every other line nothing. -/
def lineReads (s : State) : HostLine → List RData
  | .read reg => [regRead reg.addr s.regs]
  | .rst => []
  | .cfg _ _ _ _ => []
  | .commandAt _ _ _ => []
  | .bits _ => []
  | .ibits _ => []

/-- A script played on the machine: how its steps end, and the values its READ lines gave. -/
def playScript : Ports → List HostLine → State → Host.Outcome State Fault Refusal × List RData
  | _, [], s => (.next s, [])
  | held, l :: ls, s =>
    match runOn (lineSteps held l) s with
    | .next s' =>
      let played := playScript (holdAfter held l) ls s'
      (played.1, lineReads s l ++ played.2)
    | .fault f => (.fault f, lineReads s l)
    | .refused r => (.refused r, lineReads s l)

/-- The order of use of R233: RST, the configuration, MEASURE for one step, NOP while the stream comes, then RESULT and the
two counters. -/
def useOnce (cp dp : Bool) (idx : LenIdx) (th : Thresh) (stream : List Bool) : List HostLine :=
  [.rst, .cfg cp dp idx th, commandLine .measure, if cp then .ibits stream else .bits stream,
    .read .status, .read .errBits, .read .countBits]

/-- What the host reports in place of a ratio (R172). -/
inductive BerCondition where
  /-- RESULT != COMPLETE: there is no measurement result (R205). -/
  | notYetMeasured
  /-- COUNT_BITS = 0. -/
  | divisionByZero
deriving DecidableEq, Repr

/-- The pair (error_bits, counted_bits) a host may divide, after its two checks (R166, R172). Which name goes with which check
is DEDUCED from R205 (log entry 14). The ratio itself is out of scope (R6). -/
def berOperands (r : Regs) : Except BerCondition (Count × Count) :=
  if r.result != .complete then .error .notYetMeasured
  else if r.countBits == 0 then .error .divisionByZero
  else .ok (r.errBits, r.countBits)

end Sys2Proof.Machine
end

