-- ==== Sys2Proof/Safety.lean ====
section
/-! DEFINITION. What a safe run is: the host's duties (R239), the invariants of the reachable states (R40, R112, R149), and
the relations between runs the claims use (R128, R232). -/

namespace Sys2Proof.Machine

/-- The host keeps its duty in the coming step: RST, or, after the first RST, a legal command that is NOP or ABORT whenever
the core is busy (R231, R233, R239). -/
def HostObeys (s : State) : Prop :=
  s.ports.rst = true ∨
    (s.rstSeen = true ∧ (CommandFields.ofWord s.ports.cmd).wf = true ∧
      (busy s.regs = true → s.ports.cmd = 0x00 ∨ s.ports.cmd = 0x20))

/-- The 62 LFSR values of R112: the 32 states of R110, and each of them with cell 15 flipped (two of those are among the
32). -/
def reachableLfsr : List Lfsr :=
  (List.range 32).flatMap (fun k => [seqState k, forceOverride (!seqBit k) (seqState k)])

/-- The eight facts R40 states of every state reachable from RST. -/
structure Reachable (r : Regs) : Prop where
  lenIdx_le : r.lenIdx.toNat ≤ 5
  thresh_pos : r.phase ≠ .idle → 1 ≤ r.thresh.toNat
  sync_match : r.phase = .syncWaitRise ∨ r.phase = .syncWaitFall →
    r.matchCnt.toNat ≤ r.thresh.toNat ∧ (r.matchCnt = r.thresh ↔ r.lock = true)
  counters : r.errBits.toNat ≤ r.countBits.toNat ∧ r.countBits.toNat ≤ (total r).toNat
  sync_counters : r.phase = .syncWaitRise ∨ r.phase = .syncWaitFall → r.countBits = 0 ∧ r.errBits = 0
  count_locked : r.phase = .countWaitRise ∨ r.phase = .countWaitFall → r.lock = true
  complete_total : r.phase = .idle → r.result = .complete → r.countBits = total r
  lfsr_ne_zero : r.lfsr ≠ 0

/-- The invariant every step keeps: R40's facts, with what makes them inductive. While the core waits for a sync bit
MATCH_CNT < THRESH (R149); while it waits for a counted bit COUNT_BITS < TOTAL; and the LFSR is one of the 62 values of R112. -/
structure StepInv (r : Regs) : Prop extends Reachable r where
  match_lt : r.phase = .syncWaitRise → r.matchCnt.toNat < r.thresh.toNat
  count_lt : r.phase = .countWaitRise → r.countBits.toNat < (total r).toNat
  lfsr_reachable : r.lfsr ∈ reachableLfsr

/-- The ports with the data line and the data-polarity input inverted (R128). -/
def flipData (p : Ports) : Ports := { p with data := !p.data, cfgDataPol := !p.cfgDataPol }

/-- The ports with the clock line and the clock-polarity input inverted (R128). -/
def flipClock (p : Ports) : Ports := { p with clk := !p.clk, cfgClkPol := !p.cfgClkPol }

/-- The registers with the DATA_POL latch inverted. -/
def flipDataPol (r : Regs) : Regs := { r with dataPol := !r.dataPol }

/-- The registers with the CLK_POL latch inverted. -/
def flipClockPol (r : Regs) : Regs := { r with clkPol := !r.clkPol }

/-- Two outcomes that agree as far as the core goes: both next states, with the second's registers the image of the first's
under `m` and the same reset mark; or both refused for the same reason. -/
def SameOutcome (m : Regs → Regs) (a b : Host.Outcome State Fault Refusal) : Prop :=
  match a, b with
  | .next s, .next t => t.regs = m s.regs ∧ t.rstSeen = s.rstSeen
  | .refused r, .refused r' => r' = r
  | _, _ => False

/-- A valid MEASURE on the ports (R162): no reset, the word 0x10, an index of the table and a positive threshold. -/
def ValidMeasure (p : Ports) : Prop :=
  p.rst = false ∧ p.cmd = 0x10 ∧ p.cfgLenIdx.toNat ≤ 5 ∧ p.cfgThresh ≠ 0

/-- An advance written as a number, `((LFSR << 1) AND 0xFFFF) OR f` with f = LFSR[7] XOR LFSR[11] (R102): the claims'
own form of it, beside the shift of cells the model uses. -/
def shiftedIn (l : Lfsr) : Lfsr := (l <<< 1) ||| (if l.getLsbD 7 = l.getLsbD 11 then 0 else 1)

/-- i_m of R113: the bit that advance number m inserts at cell[0], and 1 for m <= 0, the seed cells. -/
def insertedBit (m : Int) : Bool := if m ≤ 0 then true else feedback (seqState (m.toNat - 1))

/-- The coming step is a poll step after a reset: RST = 0 and CMD = NOP (R160). -/
def PollStep (s : State) : Prop := s.ports.rst = false ∧ s.rstSeen = true ∧ s.ports.cmd = 0x00

/-- The coming step is a SYNC-BIT: lc = 1, that is CLK_IN differs from CLK_POL, in SYNC_WAIT_RISE (R141). -/
def TakesSyncBit (s : State) : Prop :=
  PollStep s ∧ s.regs.phase = .syncWaitRise ∧ s.ports.clk ≠ s.regs.clkPol

/-- The coming step is a COUNT-BIT: lc = 1 in COUNT_WAIT_RISE (R164). -/
def TakesCountBit (s : State) : Prop :=
  PollStep s ∧ s.regs.phase = .countWaitRise ∧ s.ports.clk ≠ s.regs.clkPol

/-- The coming step completes a measurement: a COUNT-FALL (lc = 0 in COUNT_WAIT_FALL) with COUNT_BITS = TOTAL (R165). -/
def Completes (s : State) : Prop :=
  PollStep s ∧ s.regs.phase = .countWaitFall ∧ s.ports.clk = s.regs.clkPol ∧ s.regs.countBits = total s.regs

/-- The coming step executes a valid MEASURE (R162). -/
def StartsMeasurement (s : State) : Prop := ValidMeasure s.ports ∧ s.regs.phase = .idle

end Sys2Proof.Machine
end

