-- ==== Sys2Proof/Certificates/Slice0/Obligations.lean ====
section
/-! DEFINITION. The statements for the provers, in the order of the spec's files. A statement about a command gives the whole
next state of `exec` (its frame is the record it updates); a statement about a step speaks of the registers `t.regs`, since
the inputs of the coming steps move on. -/

open Sys2Proof Sys2Proof.Machine

/-! ### Command encoding (30_encoding.md) -/

/-- The seven legal words of R72, each decoded to its command. -/
def Obligations.CommandWordsDecodeAsTheTableSays : Prop :=
  decode 0x00 = .ok .nop ∧ decode 0x10 = .ok .measure ∧ decode 0x20 = .ok .abort ∧ decode 0x30 = .ok .sgReset ∧
  decode 0x40 = .ok .sgAdvance ∧ decode 0x50 = .ok (.sgForce false) ∧ decode 0x51 = .ok (.sgForce true)

/-- Decoding the word of any command gives the command back, SG.FORCE's operand included (R72, R73). -/
def Obligations.DecodeInvertsEncode : Prop := ∀ i : Instr, decode (encode i) = .ok i

/-- R74: a word is illegal exactly when OP is 0x6 to 0xF, or RSV is not 0, or B is 1 and OP is not 0x5; 249 of the 256 words
are; and a step that presents one is refused. -/
def Obligations.IllegalWordsAreRefused : Prop :=
  (∀ w : CmdWord, (∀ i, decode w ≠ .ok i) ↔
    (6 ≤ w.toNat / 16 ∨ (w.toNat / 2) % 8 ≠ 0 ∨ (w.toNat % 2 = 1 ∧ w.toNat / 16 ≠ 5))) ∧
  ((List.range 256).filter (fun n => (decodeTableWord 8 n).isNone)).length = 249 ∧
  (∀ s : State, s.ports.rst = false → s.rstSeen = true → (∀ i, decode s.ports.cmd ≠ .ok i) →
    step s = .refused .illegalCommand)

/-- R75: in IDLE every command is accepted; while busy NOP and ABORT are, and MEASURE and SG.* are refused. ABORT has no
effect in IDLE and ends the measurement while busy. -/
def Obligations.CommandLegalityByPhase : Prop :=
  ∀ (i : Instr) (s : State),
    (s.regs.phase = .idle → ∃ t, exec i s = .next t) ∧
    (s.regs.phase ≠ .idle → i = .nop ∨ i = .abort → ∃ t, exec i s = .next t) ∧
    (s.regs.phase ≠ .idle → i ≠ .nop → i ≠ .abort → exec i s = .refused .commandWhileBusy) ∧
    (s.regs.phase = .idle → exec .abort s = .next s) ∧
    (s.regs.phase ≠ .idle → ∃ t, exec .abort s = .next t ∧ t.regs.phase = .idle)

/-- A line of assembler text gives back the command it writes, with or without a comment after it (R77; how words are
separated is the model's choice, log entry 13). -/
def Obligations.AssemblyTextRoundTrip : Prop :=
  ∀ (i : Instr) (comment : List Char),
    assembleLine (assemblyText i) = some i ∧ assembleLine (assemblyText i ++ ';' :: comment) = some i

/-- R79: the steps of each line of a host script, and what READ gives. RST is one step with RST = 1; CFG takes none and its
values are held until the next CFG; a command is one step, with CLK_IN = DATA_IN = 0 unless levels are written; BITS and IBITS
are two poll steps a bit, with CLK_IN 1 then 0 and 0 then 1; STREAM k f is BITS for f(0) to f(k-1); READ takes none and gives
the register in the state the steps so far have left, which is what RDATA then shows. Playing a script is presenting its
steps. -/
def Obligations.PlayingAScriptPresentsItsSteps : Prop :=
  ([.status, .lfsr, .matchCnt, .errBits, .countBits, .config, .thresh, .total] : List ReadReg).map ReadReg.addr =
    [0, 1, 2, 3, 4, 5, 6, 7] ∧
  ∀ (held : Ports) (ls : List HostLine),
    scriptSteps held [] = [] ∧
    scriptSteps held (.rst :: ls) = { held with rst := true } :: scriptSteps held ls ∧
    (∀ cp dp idx th, scriptSteps held (.cfg cp dp idx th :: ls) =
      scriptSteps { held with cfgClkPol := cp, cfgDataPol := dp, cfgLenIdx := idx, cfgThresh := th } ls) ∧
    (∀ i clk data, scriptSteps held (.commandAt i clk data :: ls) =
      { held with rst := false, cmd := encode i, clk := clk, data := data } :: scriptSteps held ls) ∧
    (∀ i, scriptSteps held (commandLine i :: ls) =
      { held with rst := false, cmd := encode i, clk := false, data := false } :: scriptSteps held ls) ∧
    scriptSteps held (.bits [] :: ls) = scriptSteps held ls ∧
    (∀ b bs, scriptSteps held (.bits (b :: bs) :: ls) =
      { held with rst := false, cmd := 0x00, clk := true, data := b } ::
      { held with rst := false, cmd := 0x00, clk := false, data := b } :: scriptSteps held (.bits bs :: ls)) ∧
    scriptSteps held (.ibits [] :: ls) = scriptSteps held ls ∧
    (∀ b bs, scriptSteps held (.ibits (b :: bs) :: ls) =
      { held with rst := false, cmd := 0x00, clk := false, data := b } ::
      { held with rst := false, cmd := 0x00, clk := true, data := b } :: scriptSteps held (.ibits bs :: ls)) ∧
    (∀ k f, streamLine k f = .bits (List.ofFn fun j : Fin k => f j)) ∧
    (∀ reg, scriptSteps held (.read reg :: ls) = scriptSteps held ls) ∧
    (∀ s, (playScript held ls s).1 = runOn (scriptSteps held ls) s) ∧
    (∀ s, (∀ reg, .read reg ∉ ls) → (playScript held ls s).2 = []) ∧
    (∀ s t reg, runOn (scriptSteps held ls) s = .next t →
      (playScript held (ls ++ [.read reg]) s).2 = (playScript held ls s).2 ++ [regRead reg.addr t.regs] ∧
      ∀ p : Ports, p.raddr = reg.addr → rdata (t.setPorts p) = regRead reg.addr t.regs)

/-! ### The step (43_measurement_controller.md R160) -/

/-- A step whose CMD decodes to `i` is `exec i`, after which the next inputs stand on the ports: the next record of the script,
or, where the script has ended, no reset, NOP, the other ports held and two free levels (R71, R160; the inputs after the
script are the model's choice, log entries 1 and 2). -/
def Obligations.StepRunsTheDecodedCommand : Prop :=
  ∀ (s : State) (i : Instr), s.ports.rst = false → s.rstSeen = true → decode s.ports.cmd = .ok i →
    (∀ r, exec i s = .refused r → step s = .refused r) ∧
    (∀ t, exec i s = .next t →
      (∀ p ps, s.script = p :: ps → step s = .next { t with ports := p, script := ps }) ∧
      (s.script = [] → step s = .next { t with
        ports := { s.ports with rst := false, cmd := 0x00, clk := Config.freeClk s.draws, data := Config.freeData s.draws },
        draws := s.draws + 1 }))

/-- R160, the machine's only transition, case by case in its order. The four actions `syncBit`, `syncFall`, `countBit` and
`countFall` are those the statements of R141, R144, R164 and R165 give register by register. -/
def Obligations.StepTransitionTable : Prop :=
  ∀ s : State,
    (s.ports.rst = true → ∃ t, step s = .next t ∧ t.regs = Regs.reset ∧ t.rstSeen = true) ∧
    (s.ports.rst = false → s.rstSeen = false → step s = .refused .beforeReset) ∧
    (s.ports.rst = false → s.rstSeen = true →
      ((CommandFields.ofWord s.ports.cmd).wf = false → step s = .refused .illegalCommand) ∧
      (s.ports.cmd = 0x20 → ∃ t, step s = .next t ∧
        (s.regs.phase ≠ .idle → t.regs = { s.regs with phase := .idle, result := .aborted }) ∧
        (s.regs.phase = .idle → t.regs = s.regs)) ∧
      (s.regs.phase ≠ .idle → s.ports.cmd ∈ ([0x10, 0x30, 0x40, 0x50, 0x51] : List CmdWord) →
        step s = .refused .commandWhileBusy) ∧
      (s.regs.phase = .idle →
        (s.ports.cmd = 0x10 → ∃ t, step s = .next t ∧ exec .measure s = .next { s with regs := t.regs }) ∧
        (s.ports.cmd = 0x30 → ∃ t, step s = .next t ∧ t.regs = { s.regs with lfsr := 0xFFFF }) ∧
        (s.ports.cmd = 0x40 → ∃ t, step s = .next t ∧ t.regs = { s.regs with lfsr := advance s.regs.lfsr }) ∧
        (s.ports.cmd = 0x50 → ∃ t, step s = .next t ∧ t.regs = { s.regs with lfsr := forceOverride false s.regs.lfsr }) ∧
        (s.ports.cmd = 0x51 → ∃ t, step s = .next t ∧ t.regs = { s.regs with lfsr := forceOverride true s.regs.lfsr })) ∧
      (s.ports.cmd = 0x00 → ∃ t, step s = .next t ∧
        (s.regs.phase = .idle → t.regs = s.regs) ∧
        (s.regs.phase = .syncWaitRise → s.ports.clk ≠ s.regs.clkPol →
          t.regs = syncBit (s.ports.data != s.regs.dataPol) s.regs) ∧
        (s.regs.phase = .syncWaitFall → s.ports.clk = s.regs.clkPol → t.regs = syncFall s.regs) ∧
        (s.regs.phase = .countWaitRise → s.ports.clk ≠ s.regs.clkPol →
          t.regs = countBit (s.ports.data != s.regs.dataPol) s.regs) ∧
        (s.regs.phase = .countWaitFall → s.ports.clk = s.regs.clkPol → t.regs = countFall s.regs) ∧
        (s.regs.phase = .syncWaitRise ∨ s.regs.phase = .countWaitRise → s.ports.clk = s.regs.clkPol → t.regs = s.regs) ∧
        (s.regs.phase = .syncWaitFall ∨ s.regs.phase = .countWaitFall → s.ports.clk ≠ s.regs.clkPol →
          t.regs = s.regs)))

/-- A run over the inputs a state's script holds is the run in which they are presented one by one: the registers, the reset
mark and the refusals agree (log entry 1). -/
def Obligations.ScriptedRunIsThePresentedRun : Prop :=
  ∀ (ps : List Ports) (s : State),
    SameOutcome id (runOn ps s) (Host.Core.run Sys2Proof.core ps.length (s.present ps))

/-! ### Reset (10_state.md R38, 70_reset_and_hazards.md R230, R231) -/

/-- R38: a step with RST = 1 writes every register its reset value, whatever stands in the registers and on the other ports,
and a further step with RST = 1 changes none of them. -/
def Obligations.ResetWritesEveryRegister : Prop :=
  ∀ s : State, s.ports.rst = true → ∃ t, step s = .next t ∧ t.rstSeen = true ∧
    t.regs.lfsr = 0xFFFF ∧ t.regs.matchCnt = 0 ∧ t.regs.errBits = 0 ∧ t.regs.countBits = 0 ∧ t.regs.phase = .idle ∧
    t.regs.lock = false ∧ t.regs.result = .none ∧ t.regs.clkPol = false ∧ t.regs.dataPol = false ∧ t.regs.lenIdx = 0 ∧
    t.regs.thresh = 0 ∧ total t.regs = 1000 ∧
    (∀ p, p.rst = true → ∃ u, stepOn p t = .next u ∧ u.regs = t.regs)

/-- R231: after power-up, with any register values, every step before the first RST = 1 is refused and RST = 1 is accepted. -/
def Obligations.NoStepBeforeTheFirstReset : Prop :=
  (∀ (r : Regs) (p : Ports) (ps : List Ports),
    (State.powerUp r p ps).regs = r ∧ (State.powerUp r p ps).rstSeen = false) ∧
  (∀ s : State, s.rstSeen = false →
    (s.ports.rst = false → step s = .refused .beforeReset) ∧
    (s.ports.rst = true → ∃ t, step s = .next t ∧ t.rstSeen = true ∧ t.regs = Regs.reset))

/-! ### SequenceGenerator (40_sequence_generator.md) -/

/-- R101: the feedback bit is cell[7] XOR cell[11], and no other cell feeds back. -/
def Obligations.FeedbackReadsCells7And11 : Prop :=
  ∀ l m : Lfsr, feedback l = (l.getLsbD 7 != l.getLsbD 11) ∧
    (l.getLsbD 7 = m.getLsbD 7 → l.getLsbD 11 = m.getLsbD 11 → feedback l = feedback m)

/-- An advance moves every cell one index up, discards cell[15] and inserts the feedback of the old cells at cell[0]; as a
number it is ((LFSR << 1) AND 0xFFFF) OR f (R102). -/
def Obligations.AdvanceShiftsTowardHigherIndex : Prop :=
  ∀ l : Lfsr, (advance l).getLsbD 0 = feedback l ∧ (∀ i, i < 15 → (advance l).getLsbD (i + 1) = l.getLsbD i) ∧
    advance l = shiftedIn l ∧ (advance l).toNat = (2 * l.toNat) % 65536 + (feedback l).toNat

/-- R106, SG.RESET: word 0x30; in IDLE the LFSR becomes 0xFFFF and nothing else changes, EXPECTED becomes 1; while busy it is
refused. -/
def Obligations.SgResetReseedsTheLfsr : Prop :=
  decode 0x30 = .ok .sgReset ∧
  ∀ s : State,
    (s.regs.phase = .idle → exec .sgReset s = .next { s with regs := { s.regs with lfsr := 0xFFFF } } ∧
      expected { s.regs with lfsr := 0xFFFF } = true) ∧
    (s.regs.phase = .idle → s.regs.lfsr = 0xFFFF → exec .sgReset s = .next s) ∧
    (s.regs.phase ≠ .idle → exec .sgReset s = .refused .commandWhileBusy)

/-- R107, SG.ADVANCE: word 0x40; in IDLE the LFSR is advanced once and nothing else changes, EXPECTED becomes the old LFSR[14];
while busy it is refused; the corner cases 0x0000 and 0x8000 and the example 0xFF00. -/
def Obligations.SgAdvanceShiftsTheLfsrOnce : Prop :=
  decode 0x40 = .ok .sgAdvance ∧
  (∀ s : State,
    (s.regs.phase = .idle → ∃ l : Lfsr,
      exec .sgAdvance s = .next { s with regs := { s.regs with lfsr := l } } ∧
      l.getLsbD 0 = (s.regs.lfsr.getLsbD 7 != s.regs.lfsr.getLsbD 11) ∧
      (∀ i, i < 15 → l.getLsbD (i + 1) = s.regs.lfsr.getLsbD i) ∧
      expected { s.regs with lfsr := l } = s.regs.lfsr.getLsbD 14) ∧
    (s.regs.phase ≠ .idle → exec .sgAdvance s = .refused .commandWhileBusy)) ∧
  advance 0x0000 = 0x0000 ∧ advance 0x8000 = 0x0000 ∧ advance 0xFF00 = 0xFE01

/-- R108, SG.FORCE b: words 0x50 and 0x51; in IDLE cell[15] becomes b and nothing else changes, EXPECTED becomes b; forcing the
value it holds changes nothing; a following SG.ADVANCE gives a state that does not depend on b; while busy it is refused; the
example 0xFFFF. -/
def Obligations.SgForceWritesCell15 : Prop :=
  decode 0x50 = .ok (.sgForce false) ∧ decode 0x51 = .ok (.sgForce true) ∧
  (∀ (b : Bool) (s : State),
    (s.regs.phase = .idle → ∃ l : Lfsr,
      exec (.sgForce b) s = .next { s with regs := { s.regs with lfsr := l } } ∧
      l.getLsbD 15 = b ∧ (∀ i, i < 15 → l.getLsbD i = s.regs.lfsr.getLsbD i) ∧
      expected { s.regs with lfsr := l } = b ∧
      exec .sgAdvance { s with regs := { s.regs with lfsr := l } } = exec .sgAdvance s) ∧
    (s.regs.phase = .idle → s.regs.lfsr.getLsbD 15 = b → exec (.sgForce b) s = .next s) ∧
    (s.regs.phase ≠ .idle → exec (.sgForce b) s = .refused .commandWhileBusy)) ∧
  forceOverride false 0xFFFF = 0x7FFF

/-- R111, derived in the spec from R102 and R104: cells 0 to 14 after an advance depend only on cells 0 to 14 before it, so an
override that an advance follows changes no later state and no later expected bit. -/
def Obligations.ForcedCellNeverFeedsBack : Prop :=
  (∀ l : Lfsr, (advance l).getLsbD 0 = (l.getLsbD 7 != l.getLsbD 11) ∧
    ∀ j, 1 ≤ j → j ≤ 14 → (advance l).getLsbD j = l.getLsbD (j - 1)) ∧
  (∀ l m : Lfsr, (∀ i, i < 15 → l.getLsbD i = m.getLsbD i) →
    ∀ i, i < 15 → (advance l).getLsbD i = (advance m).getLsbD i) ∧
  (∀ (b : Bool) (l : Lfsr), advance (forceOverride b l) = advance l) ∧
  (∀ (b : Bool) (l : Lfsr) (k : Nat), peek (advances (k + 1) (forceOverride b l)) = peek (advances (k + 1) l)) ∧
  (∀ l m : Lfsr, (∀ i, i < 15 → l.getLsbD i = m.getLsbD i) → advance l = advance m)

/-- R110, derived in the spec from R101, R102 and R105: the states from the seed, their feedback bits, a transient of 4 states that never recur, then a cycle of 28 distinct
states; the expected bits from k = 4 on have period 28 and no shorter one; the first 64 of them. -/
def Obligations.ExpectedBitsHavePeriod28 : Prop :=
  (List.range 33).map seqState =
    [0xFFFF, 0xFFFE, 0xFFFC, 0xFFF8, 0xFFF0, 0xFFE0, 0xFFC0, 0xFF80, 0xFF00, 0xFE01, 0xFC03] ++
    [0xF807, 0xF00F, 0xE01E, 0xC03C, 0x8078, 0x00F0, 0x01E1, 0x03C3, 0x0787, 0x0F0F, 0x1E1F] ++
    [0x3C3F, 0x787F, 0xF0FF, 0xE1FF, 0xC3FF, 0x87FF, 0x0FFF, 0x1FFE, 0x3FFC, 0x7FF8, 0xFFF0] ∧
  (∀ k, k ≤ 32 → (feedback (seqState k) = true ↔ (8 ≤ k ∧ k ≤ 11) ∨ (16 ≤ k ∧ k ≤ 27))) ∧
  (∀ k, 4 ≤ k → seqState (k + 28) = seqState k) ∧
  (∀ j k, j < 32 → k < 32 → seqState j = seqState k → j = k) ∧
  (∀ j k, j < 4 → j ≠ k → seqState k ≠ seqState j) ∧
  (∀ p, 0 < p → p < 28 → ∃ k, 4 ≤ k ∧ seqBit (k + p) ≠ seqBit k) ∧
  (∀ k, k < 64 → (seqBit k = false ↔
    (16 ≤ k ∧ k ≤ 23) ∨ (28 ≤ k ∧ k ≤ 31) ∨ (44 ≤ k ∧ k ≤ 51) ∨ (56 ≤ k ∧ k ≤ 59)))

/-- The 62 values of R112, derived in the spec: the all-zero state is a fixed point of advance; the set holds the seed, is closed under advance and
both overrides and has exactly 62 members; states 3 and 31 are each other's flips; cells 0 to 14 are never all zero and their
smallest value is 0x0078. -/
def Obligations.SixtyTwoLfsrValues : Prop :=
  feedback 0x0000 = false ∧ advance 0x0000 = 0x0000 ∧
  0xFFFF ∈ reachableLfsr ∧ reachableLfsr.dedup.length = 62 ∧
  (∀ l ∈ reachableLfsr, advance l ∈ reachableLfsr ∧ ∀ b, forceOverride b l ∈ reachableLfsr) ∧
  forceOverride false (seqState 3) = seqState 31 ∧ forceOverride true (seqState 31) = seqState 3 ∧
  (∀ l ∈ reachableLfsr, 0x0078 ≤ (l &&& 0x7FFF).toNat) ∧ (∃ l ∈ reachableLfsr, (l &&& 0x7FFF).toNat = 0x0078)

/-- From RST, whatever the environment presents afterwards, the LFSR is always one of the 62 values, so it is never 0x0000
(R112, derived in the spec). -/
def Obligations.LfsrStaysAmongThe62Values : Prop :=
  ∀ (p : Ports) (ps : List Ports) (s t : State), p.rst = true → runOn (p :: ps) s = .next t →
    t.regs.lfsr ∈ reachableLfsr ∧ t.regs.lfsr ≠ 0

/-- R113, derived in the spec: the inserted bits obey i_m = i_(m-8) XOR i_(m-12), the expected bit after k advances is i_(k-15), which is 1 for
k <= 15, and the characteristic polynomial x^12 + x^4 + 1 is (x^3 + x + 1)^4 over GF(2). -/
def Obligations.InsertedBitsObeyTheRecurrence : Prop :=
  (∀ m : Int, 1 ≤ m → insertedBit m = (insertedBit (m - 8) != insertedBit (m - 12))) ∧
  (∀ k : Nat, seqBit k = insertedBit ((k : Int) - 15)) ∧
  (∀ k : Nat, k ≤ 15 → seqBit k = true) ∧
  (Polynomial.X ^ 12 + Polynomial.X ^ 4 + 1 : Polynomial (ZMod 2)) =
    (Polynomial.X ^ 3 + Polynomial.X + 1) ^ 4

/-! ### BitSampler (41_bit_sampler.md) -/

/-- The two waits are level tests (R120, R123, R125): in a rise wait a poll step changes nothing while CLK_IN equals CLK_POL
(lc = 0) and leaves for the fall wait in the step where they differ; in a fall wait it changes nothing while they differ and
leaves it in the step where they are equal. -/
def Obligations.WaitsAreLevelTests : Prop :=
  ∀ s : State, PollStep s → ∃ t, step s = .next t ∧
    (s.regs.phase = .syncWaitRise ∨ s.regs.phase = .countWaitRise →
      (s.ports.clk = s.regs.clkPol → t.regs = s.regs) ∧
      (s.ports.clk ≠ s.regs.clkPol → t.regs.phase = .syncWaitFall ∨ t.regs.phase = .countWaitFall)) ∧
    (s.regs.phase = .syncWaitFall ∨ s.regs.phase = .countWaitFall →
      (s.ports.clk ≠ s.regs.clkPol → t.regs = s.regs) ∧
      (s.ports.clk = s.regs.clkPol →
        t.regs.phase = .syncWaitRise ∨ t.regs.phase = .countWaitRise ∨ t.regs.phase = .idle))

/-- R127: while the logical clock does not change, a wait holds for any number of poll steps, and only ABORT or RST ends it. -/
def Obligations.WaitsHoldWithoutBound : Prop :=
  (∀ (ps : List Ports) (s : State), s.rstSeen = true →
    (∀ p ∈ ps, p.rst = false ∧ p.cmd = 0x00) →
    ((s.regs.phase = .syncWaitRise ∨ s.regs.phase = .countWaitRise) ∧ (∀ p ∈ ps, p.clk = s.regs.clkPol)) ∨
      ((s.regs.phase = .syncWaitFall ∨ s.regs.phase = .countWaitFall) ∧ (∀ p ∈ ps, p.clk ≠ s.regs.clkPol)) →
    ∃ t, runOn ps s = .next t ∧ t.regs = s.regs) ∧
  (∀ (p : Ports) (s t : State), s.rstSeen = true →
    ((s.regs.phase = .syncWaitRise ∨ s.regs.phase = .countWaitRise) ∧ p.clk = s.regs.clkPol) ∨
      ((s.regs.phase = .syncWaitFall ∨ s.regs.phase = .countWaitFall) ∧ p.clk ≠ s.regs.clkPol) →
    stepOn p s = .next t → t.regs ≠ s.regs → p.rst = true ∨ p.cmd = 0x20)

/-- R126, derived in the spec: over any sequence of poll steps that leaves the measurement running, the core samples one bit for each maximal run of
lc = 1 that begins in it; each sample advances the LFSR once, and nothing else does. -/
def Obligations.OneSampleForEachRunOfOnes : Prop :=
  ∀ (ps : List Ports) (s t : State), s.rstSeen = true → (∀ p ∈ ps, p.rst = false ∧ p.cmd = 0x00) →
    runOn ps s = .next t → t.regs.phase ≠ .idle →
    t.regs.lfsr =
      advances
        (runsOfOnes (decide (s.regs.phase = .syncWaitFall ∨ s.regs.phase = .countWaitFall))
          (ps.map fun p => p.clk != s.regs.clkPol))
        s.regs.lfsr

/-- R128, derived in the spec: inverting the data line together with the data polarity, or the clock line together with the clock polarity, in every
step of a run without RST changes nothing but the polarity latch itself. -/
def Obligations.PolarityIsARelabelling : Prop :=
  ∀ (ps : List Ports) (s : State), (∀ p ∈ ps, p.rst = false) →
    SameOutcome flipDataPol (runOn ps s) (runOn (ps.map flipData) { s with regs := flipDataPol s.regs }) ∧
    SameOutcome flipClockPol (runOn ps s) (runOn (ps.map flipClock) { s with regs := flipClockPol s.regs })

/-- The lines matter in poll steps of a running measurement only (R122, R237): in a reset step, a command step or IDLE, other
levels of CLK_IN and DATA_IN give the same registers or the same refusal. -/
def Obligations.CommandStepsIgnoreTheLines : Prop :=
  ∀ (s : State) (clk data : Bool), s.ports.rst = true ∨ s.ports.cmd ≠ 0x00 ∨ s.regs.phase = .idle →
    SameOutcome id (step s) (step { s with ports := { s.ports with clk := clk, data := data } })

/-! ### SyncEngine (42_sync_engine.md) -/

/-- R141, SYNC-BIT: with lc = 1 in SYNC_WAIT_RISE, compare the sampled bit with LFSR[15]; count or restart; on a mismatch force
cell[15] to the complement; advance; lock when MATCH_CNT equals THRESH; SYNC_WAIT_FALL. All in one step, nothing else. In a
state that meets the invariant MATCH_CNT stays at most THRESH and a mismatch never locks. -/
def Obligations.SyncBitAction : Prop :=
  ∀ s : State, s.regs.phase = .syncWaitRise → s.ports.clk ≠ s.regs.clkPol →
    ∃ m : Count, ∃ l : Lfsr,
      ((s.ports.data != s.regs.dataPol) = s.regs.lfsr.getLsbD 15 → m = s.regs.matchCnt + 1 ∧ l = s.regs.lfsr) ∧
      ((s.ports.data != s.regs.dataPol) ≠ s.regs.lfsr.getLsbD 15 →
        m = 0 ∧ l = forceOverride (!s.regs.lfsr.getLsbD 15) s.regs.lfsr) ∧
      (StepInv s.regs → m.toNat ≤ s.regs.thresh.toNat ∧
        ((s.ports.data != s.regs.dataPol) ≠ s.regs.lfsr.getLsbD 15 → m ≠ s.regs.thresh)) ∧
      exec .nop s = .next { s with regs := { s.regs with
        matchCnt := m, lfsr := shiftedIn l, lock := s.regs.lock || m == s.regs.thresh, phase := .syncWaitFall } }

/-- R27: LOCK becomes 1 only in the SYNC-BIT step in which MATCH_CNT becomes equal to THRESH, and 0 only by a valid MEASURE or
RST; LOCK_OUT always equals LOCK. -/
def Obligations.LockChangesOnlyAtItsTransitions : Prop :=
  ∀ s t : State, step s = .next t →
    (s.regs.lock = false → t.regs.lock = true → TakesSyncBit s ∧ t.regs.matchCnt = s.regs.thresh) ∧
    (s.regs.lock = true → t.regs.lock = false → s.ports.rst = true ∨ StartsMeasurement s) ∧
    (TakesSyncBit s → t.regs.matchCnt = s.regs.thresh → t.regs.lock = true) ∧
    (s.ports.rst = true ∨ StartsMeasurement s → t.regs.lock = false) ∧
    lockOut t = t.regs.lock

/-- R144, SYNC-FALL: with lc = 0 in SYNC_WAIT_FALL, PHASE becomes COUNT_WAIT_RISE when LOCK = 1 and SYNC_WAIT_RISE when not,
and nothing else changes; both window counters are 0 there in every state that meets the invariant. -/
def Obligations.SyncFallAction : Prop :=
  ∀ s : State, s.regs.phase = .syncWaitFall → s.ports.clk = s.regs.clkPol →
    (s.regs.lock = true → exec .nop s = .next { s with regs := { s.regs with phase := .countWaitRise } }) ∧
    (s.regs.lock = false → exec .nop s = .next { s with regs := { s.regs with phase := .syncWaitRise } }) ∧
    (StepInv s.regs → s.regs.errBits = 0 ∧ s.regs.countBits = 0)

/-- R146, derived in the spec: a mismatching SYNC-BIT leaves the state the same step would leave without its override, and after j sync bits the LFSR
is state j of R110, whatever bits were sampled and however long the logical clock was 0 before the first of them. -/
def Obligations.SyncOverrideIsUnobservable : Prop :=
  (∀ s : State, s.regs.phase = .syncWaitRise → s.ports.clk ≠ s.regs.clkPol →
    (s.ports.data != s.regs.dataPol) ≠ s.regs.lfsr.getLsbD 15 →
    exec .nop s = .next { s with regs := { s.regs with
      matchCnt := 0, lfsr := advance s.regs.lfsr, lock := s.regs.lock || 0 == s.regs.thresh, phase := .syncWaitFall } }) ∧
  (∀ (s : State) (m held : Ports) (low : List Bool) (bs : List PolledBit),
    s.rstSeen = true → s.regs.phase = .idle → ValidMeasure m →
    (∀ n, n < bs.length → consecutiveMatches (sampledAt m.cfgDataPol bs) n ≠ m.cfgThresh.toNat) →
    ∃ t, runOn (m :: streamSteps held m.cfgClkPol low bs) s = .next t ∧ t.regs.lfsr = seqState bs.length)

/-- R147, derived in the spec: a stream equal to the expected bits locks in the SYNC-BIT step of its THRESH-th bit and not before, after exactly
THRESH advances; the counted phase then begins with the LFSR in state THRESH. Steps with lc = 0 may come before the first
bit (R234). -/
def Obligations.MatchingStreamLocksAtTheThreshold : Prop :=
  ∀ (s : State) (m held : Ports) (low : List Bool) (bs : List PolledBit) (last : PolledBit),
    s.rstSeen = true → s.regs.phase = .idle → ValidMeasure m → bs.length + 1 = m.cfgThresh.toNat →
    (∀ k, k ≤ bs.length → sampledAt m.cfgDataPol (bs ++ [last]) k = seqBit k) →
    (∃ t, runOn (m :: streamSteps held m.cfgClkPol low bs) s = .next t ∧ t.regs.lock = false ∧
      t.regs.phase = .syncWaitRise) ∧
    (∃ t, runOn (m :: (streamSteps held m.cfgClkPol low bs ++ [pollPorts held (!m.cfgClkPol) last.bit])) s = .next t ∧
      t.regs.lock = true ∧ t.regs.phase = .syncWaitFall ∧ t.regs.matchCnt = m.cfgThresh ∧
      t.regs.lfsr = seqState m.cfgThresh.toNat) ∧
    (∃ t, runOn (m :: streamSteps held m.cfgClkPol low (bs ++ [last])) s = .next t ∧
      t.regs.lock = true ∧ t.regs.phase = .countWaitRise ∧ t.regs.countBits = 0 ∧
      t.regs.lfsr = seqState m.cfgThresh.toNat)

/-- A stream that is the complement of the expected bits never locks, however long it is and whatever the threshold
(R148, derived in the spec, and R145): the core stays in LOCKING with no result code. Steps with lc = 0 may come before the
first bit. -/
def Obligations.InvertedStreamNeverLocks : Prop :=
  ∀ (s : State) (m held : Ports) (low : List Bool) (bs : List PolledBit),
    s.rstSeen = true → s.regs.phase = .idle → ValidMeasure m →
    (∀ k, k < bs.length → sampledAt m.cfgDataPol bs k ≠ seqBit k) →
    ∃ t, runOn (m :: streamSteps held m.cfgClkPol low bs) s = .next t ∧ t.regs.lock = false ∧ t.regs.matchCnt = 0 ∧
      t.regs.phase = .syncWaitRise ∧ t.regs.result = .none ∧ t.regs.countBits = 0 ∧ t.regs.lfsr = seqState bs.length

/-- At an offset that is no multiple of 28, the sequence agrees with itself on no more than 15 consecutive bits, and from bit 16
on on no more than 11; at a multiple of 28 it agrees from bit 4 on for ever (R148, derived in the spec). -/
def Obligations.OffsetSequencesAgreeOnAtMost15Bits : Prop :=
  (∀ d n, d % 28 ≠ 0 → ∃ j, j < 16 ∧ seqBit (n + j + d) ≠ seqBit (n + j)) ∧
  (∀ d n, d % 28 ≠ 0 → 16 ≤ n → ∃ j, j < 12 ∧ seqBit (n + j + d) ≠ seqBit (n + j)) ∧
  (∀ n, n < 15 → seqBit (n + 1) = seqBit n) ∧
  (∀ d n, d % 28 = 0 → 4 ≤ n → seqBit (n + d) = seqBit n)

/-- With THRESH >= 16 a stream that is the sequence at an offset other than a multiple of 28 never locks
(R148, R240 and R241, derived in the spec). Steps with lc = 0 may come before the first bit. -/
def Obligations.WrongOffsetNeverLocksFromThreshold16 : Prop :=
  ∀ (s : State) (m held : Ports) (low : List Bool) (bs : List PolledBit) (d : Nat),
    s.rstSeen = true → s.regs.phase = .idle → ValidMeasure m → 16 ≤ m.cfgThresh.toNat → d % 28 ≠ 0 →
    (∀ k, k < bs.length → sampledAt m.cfgDataPol bs k = seqBit (k + d)) →
    ∃ t, runOn (m :: streamSteps held m.cfgClkPol low bs) s = .next t ∧ t.regs.lock = false ∧ t.regs.phase = .syncWaitRise

/-! ### MeasurementController (43_measurement_controller.md) -/

/-- R161, NOP: word 0x00, never refused after a reset; in IDLE nothing changes, whatever the lines are. -/
def Obligations.NopChangesNothingInIdle : Prop :=
  decode 0x00 = .ok .nop ∧
  ∀ s : State, (∃ t, exec .nop s = .next t) ∧ (s.regs.phase = .idle → exec .nop s = .next s)

/-- R162 and R163, MEASURE: word 0x10; in IDLE with a valid configuration it latches the ports, reseeds, clears the counters, LOCK
and RESULT and enters SYNC_WAIT_RISE; with an index of 6 or 7 it writes RESULT = INVALID_LEN_IDX only, and with an index of the
table and threshold 0 it writes RESULT = INVALID_THRESH only; while busy it is refused. -/
def Obligations.MeasureStartsOrRejects : Prop :=
  decode 0x10 = .ok .measure ∧
  ∀ s : State,
    (s.regs.phase = .idle → s.ports.cfgLenIdx.toNat ≤ 5 → s.ports.cfgThresh ≠ 0 →
      exec .measure s = .next { s with regs :=
        { lfsr := 0xFFFF, matchCnt := 0, errBits := 0, countBits := 0, phase := .syncWaitRise, lock := false,
          result := .none, clkPol := s.ports.cfgClkPol, dataPol := s.ports.cfgDataPol, lenIdx := s.ports.cfgLenIdx,
          thresh := s.ports.cfgThresh } }) ∧
    (s.regs.phase = .idle → 5 < s.ports.cfgLenIdx.toNat →
      exec .measure s = .next { s with regs := { s.regs with result := .invalidLenIdx } }) ∧
    (s.regs.phase = .idle → s.ports.cfgLenIdx.toNat ≤ 5 → s.ports.cfgThresh = 0 →
      exec .measure s = .next { s with regs := { s.regs with result := .invalidThresh } }) ∧
    (s.regs.phase ≠ .idle → exec .measure s = .refused .commandWhileBusy)

/-- R164, COUNT-BIT: with lc = 1 in COUNT_WAIT_RISE, a sampled bit that differs from LFSR[15] adds 1 to ERR_BITS; the LFSR is
advanced with no override, COUNT_BITS grows by 1, PHASE becomes COUNT_WAIT_FALL, and nothing else changes. -/
def Obligations.CountBitAction : Prop :=
  ∀ s : State, s.regs.phase = .countWaitRise → s.ports.clk ≠ s.regs.clkPol →
    ∃ e : Count,
      ((s.ports.data != s.regs.dataPol) = s.regs.lfsr.getLsbD 15 → e = s.regs.errBits) ∧
      ((s.ports.data != s.regs.dataPol) ≠ s.regs.lfsr.getLsbD 15 → e = s.regs.errBits + 1) ∧
      exec .nop s = .next { s with regs := { s.regs with
        errBits := e, lfsr := shiftedIn s.regs.lfsr, countBits := s.regs.countBits + 1, phase := .countWaitFall } }

/-- R165, COUNT-FALL: with lc = 0 in COUNT_WAIT_FALL, the measurement completes (PHASE = IDLE, RESULT = COMPLETE) if COUNT_BITS
equals TOTAL and goes on to COUNT_WAIT_RISE if not, and nothing else changes. -/
def Obligations.CountFallAction : Prop :=
  ∀ s : State, s.regs.phase = .countWaitFall → s.ports.clk = s.regs.clkPol →
    (s.regs.countBits = total s.regs →
      exec .nop s = .next { s with regs := { s.regs with phase := .idle, result := .complete } }) ∧
    (s.regs.countBits ≠ total s.regs →
      exec .nop s = .next { s with regs := { s.regs with phase := .countWaitRise } })

/-- TOTAL is the LEN_IDX-th value of the table (R9, R10, R32). -/
def Obligations.TotalIsTheTableEntry : Prop :=
  ∀ r : Regs, r.lenIdx.toNat ≤ 5 →
    [1000, 5000, 10000, 30000, 50000, 65535][r.lenIdx.toNat]? = some (total r).toNat

/-- R167, ABORT: word 0x20, never refused; while busy it writes PHASE = IDLE and RESULT = ABORTED and nothing else; in IDLE it
does nothing. -/
def Obligations.AbortEndsTheMeasurement : Prop :=
  decode 0x20 = .ok .abort ∧
  ∀ s : State,
    (s.regs.phase ≠ .idle →
      exec .abort s = .next { s with regs := { s.regs with phase := .idle, result := .aborted } }) ∧
    (s.regs.phase = .idle → exec .abort s = .next s)

/-- While n counted bits of a locked measurement have been sampled and n < TOTAL, the measurement has not ended: there is no
early end, however many errors occur (R168, derived in the spec). The registers then are exactly these. Steps with lc = 0 may
come before the first sync bit. -/
def Obligations.CountPhaseHasNoEarlyEnd : Prop :=
  ∀ (s : State) (m held : Ports) (low : List Bool) (bs : List PolledBit) (S n : Nat),
    s.rstSeen = true → s.regs.phase = .idle → ValidMeasure m →
    LocksAfter (sampledAt m.cfgDataPol bs) m.cfgThresh.toNat S →
    bs.length = S + n → n < (lengthAt m.cfgLenIdx).toNat →
    ∃ t, runOn (m :: streamSteps held m.cfgClkPol low bs) s = .next t ∧ t.regs =
      { lfsr := seqState (S + n), matchCnt := m.cfgThresh,
        errBits := BitVec.ofNat 16 (mismatches (sampledAt m.cfgDataPol bs) S n), countBits := BitVec.ofNat 16 n,
        phase := .countWaitRise, lock := true, result := .none, clkPol := m.cfgClkPol, dataPol := m.cfgDataPol,
        lenIdx := m.cfgLenIdx, thresh := m.cfgThresh }

/-- R169, derived in the spec: a measurement that locks after S sync bits and samples TOTAL more completes, with COUNT_BITS = TOTAL and ERR_BITS the
number of k < TOTAL whose bit b_k differs from e_(S+k); the count phase continues the sequence where the sync phase left it. It
holds for every clock whose levels each last one step or more (R129), whether it is 0 or 1 in the first poll step after the
MEASURE (R234). -/
def Obligations.CompletedMeasurementCountsTheErrors : Prop :=
  ∀ (s : State) (m held : Ports) (low : List Bool) (bs : List PolledBit) (S : Nat),
    s.rstSeen = true → s.regs.phase = .idle → ValidMeasure m →
    LocksAfter (sampledAt m.cfgDataPol bs) m.cfgThresh.toNat S →
    bs.length = S + (lengthAt m.cfgLenIdx).toNat →
    mismatches (sampledAt m.cfgDataPol bs) S (lengthAt m.cfgLenIdx).toNat ≤ (lengthAt m.cfgLenIdx).toNat ∧
    ∃ t, runOn (m :: streamSteps held m.cfgClkPol low bs) s = .next t ∧ t.regs =
      { lfsr := seqState (S + (lengthAt m.cfgLenIdx).toNat), matchCnt := m.cfgThresh,
        errBits := BitVec.ofNat 16 (mismatches (sampledAt m.cfgDataPol bs) S (lengthAt m.cfgLenIdx).toNat),
        countBits := lengthAt m.cfgLenIdx, phase := .idle, lock := true, result := .complete, clkPol := m.cfgClkPol,
        dataPol := m.cfgDataPol, lenIdx := m.cfgLenIdx, thresh := m.cfgThresh }

/-- R173, derived in the spec: with one step for each level of the logical clock, a measurement that locks after S sync bits completes at the end of
step 1 + 2 x (S + TOTAL), counting the MEASURE step, and is busy after every earlier one. -/
def Obligations.IdealClockCompletesInKnownSteps : Prop :=
  ∀ (s : State) (m held : Ports) (ds : List Bool) (S : Nat),
    s.rstSeen = true → s.regs.phase = .idle → ValidMeasure m →
    LocksAfter (sampledAt m.cfgDataPol (ds.map idealBit)) m.cfgThresh.toNat S →
    ds.length = S + (lengthAt m.cfgLenIdx).toNat →
    (m :: polledSteps held m.cfgClkPol (ds.map idealBit)).length = 1 + 2 * (S + (lengthAt m.cfgLenIdx).toNat) ∧
    (∃ t, runOn (m :: polledSteps held m.cfgClkPol (ds.map idealBit)) s = .next t ∧ busyOut t = false ∧
      t.regs.result = .complete) ∧
    (∀ n, 1 ≤ n → n < 1 + 2 * (S + (lengthAt m.cfgLenIdx).toNat) →
      ∃ t, runOn ((m :: polledSteps held m.cfgClkPol (ds.map idealBit)).take n) s = .next t ∧ busyOut t = true)

/-- R166: once a measurement has completed, COUNT_BITS = TOTAL, and both counters stay as they are through any run without a
valid MEASURE and without RST. -/
def Obligations.CompletedCountersStand : Prop :=
  ∀ (ps : List Ports) (s t : State), s.rstSeen = true → StepInv s.regs → s.regs.phase = .idle →
    s.regs.result = .complete → (∀ p ∈ ps, p.rst = false ∧ ¬ ValidMeasure p) → runOn ps s = .next t →
    s.regs.countBits = total s.regs ∧ t.regs.errBits = s.regs.errBits ∧ t.regs.countBits = s.regs.countBits

/-- The configuration enters the core only at a valid MEASURE (R61, R170, R236): no other step but RST changes a latch, and in a
step that does not execute MEASURE other values on the configuration ports give the same registers or the same refusal. -/
def Obligations.ConfigurationEntersOnlyAtMeasure : Prop :=
  (∀ s t : State, step s = .next t → s.ports.rst = false → ¬ StartsMeasurement s →
    t.regs.clkPol = s.regs.clkPol ∧ t.regs.dataPol = s.regs.dataPol ∧ t.regs.lenIdx = s.regs.lenIdx ∧
    t.regs.thresh = s.regs.thresh) ∧
  (∀ (s : State) (cp dp : Bool) (li : LenIdx) (th : Thresh), s.ports.rst = true ∨ s.ports.cmd ≠ 0x10 →
    SameOutcome id (step s) (step { s with ports :=
      { s.ports with cfgClkPol := cp, cfgDataPol := dp, cfgLenIdx := li, cfgThresh := th } }))

/-- R23, R24 and R25: what writes the three counters, and that nothing else does. In a state that meets the invariant the
window is final once COUNT_BITS equals TOTAL. -/
def Obligations.CountersHaveOnlyTheirWriters : Prop :=
  ∀ s t : State, step s = .next t →
    (s.ports.rst = true ∨ StartsMeasurement s → t.regs.matchCnt = 0 ∧ t.regs.errBits = 0 ∧ t.regs.countBits = 0) ∧
    (TakesSyncBit s → (s.ports.data != s.regs.dataPol) = expected s.regs → t.regs.matchCnt = s.regs.matchCnt + 1) ∧
    (TakesSyncBit s → (s.ports.data != s.regs.dataPol) ≠ expected s.regs → t.regs.matchCnt = 0) ∧
    (TakesCountBit s → (s.ports.data != s.regs.dataPol) ≠ expected s.regs → t.regs.errBits = s.regs.errBits + 1) ∧
    (TakesCountBit s → (s.ports.data != s.regs.dataPol) = expected s.regs → t.regs.errBits = s.regs.errBits) ∧
    (TakesCountBit s → t.regs.countBits = s.regs.countBits + 1) ∧
    (s.ports.rst = false → ¬ StartsMeasurement s → ¬ TakesSyncBit s → t.regs.matchCnt = s.regs.matchCnt) ∧
    (s.ports.rst = false → ¬ StartsMeasurement s → ¬ TakesCountBit s →
      t.regs.errBits = s.regs.errBits ∧ t.regs.countBits = s.regs.countBits) ∧
    (StepInv s.regs → s.regs.countBits = total s.regs → s.ports.rst = false → ¬ StartsMeasurement s →
      t.regs.errBits = s.regs.errBits ∧ t.regs.countBits = s.regs.countBits)

/-- R171, derived in the spec: in a state that meets the invariant no counter addition wraps. As natural numbers, a matching
SYNC-BIT adds 1 to MATCH_CNT, a COUNT-BIT adds 1 to COUNT_BITS, and a mismatching one adds 1 to ERR_BITS; every other step
leaves the counter or sets it to 0; and the bounds of R171 hold after the step. -/
def Obligations.CounterAdditionsNeverWrap : Prop :=
  ∀ s t : State, StepInv s.regs → step s = .next t →
    (TakesSyncBit s → (s.ports.data != s.regs.dataPol) = expected s.regs →
      t.regs.matchCnt.toNat = s.regs.matchCnt.toNat + 1) ∧
    (TakesCountBit s → t.regs.countBits.toNat = s.regs.countBits.toNat + 1) ∧
    (TakesCountBit s → (s.ports.data != s.regs.dataPol) ≠ expected s.regs →
      t.regs.errBits.toNat = s.regs.errBits.toNat + 1) ∧
    (¬ (TakesSyncBit s ∧ (s.ports.data != s.regs.dataPol) = expected s.regs) →
      t.regs.matchCnt = s.regs.matchCnt ∨ t.regs.matchCnt = 0) ∧
    (¬ TakesCountBit s → t.regs.countBits = s.regs.countBits ∨ t.regs.countBits = 0) ∧
    (¬ (TakesCountBit s ∧ (s.ports.data != s.regs.dataPol) ≠ expected s.regs) →
      t.regs.errBits = s.regs.errBits ∨ t.regs.errBits = 0) ∧
    t.regs.countBits.toNat ≤ (total t.regs).toNat ∧ t.regs.errBits.toNat ≤ t.regs.countBits.toNat ∧
    (t.regs.phase = .syncWaitRise ∨ t.regs.phase = .syncWaitFall → t.regs.matchCnt.toNat ≤ t.regs.thresh.toNat)

/-- The host's check before it divides (R172, R205): no result without COMPLETE, no division by zero, and after a completed
measurement a count of at least 1000. The names of the two conditions go with the checks as log entry 14 says. -/
def Obligations.RatioNeedsACompletedMeasurement : Prop :=
  ∀ r : Regs,
    (r.result ≠ .complete → berOperands r = .error .notYetMeasured) ∧
    (r.result = .complete → r.countBits = 0 → berOperands r = .error .divisionByZero) ∧
    (r.result = .complete → r.countBits ≠ 0 → berOperands r = .ok (r.errBits, r.countBits)) ∧
    (StepInv r → r.phase = .idle → r.result = .complete →
      berOperands r = .ok (r.errBits, r.countBits) ∧ 1000 ≤ r.countBits.toNat)

/-! ### Invariants (10_state.md R40) -/

/-- The machine after reset meets the invariant. -/
def Obligations.ResetMeetsTheInvariant : Prop := State.reset.rstSeen = true ∧ StepInv State.reset.regs

/-- Every step from a state that meets the invariant leaves one that meets it, whatever the inputs; and a step with RST = 1
reaches it from any state at all. -/
def Obligations.StepKeepsTheInvariant : Prop :=
  ∀ s t : State, step s = .next t → s.ports.rst = true ∨ (s.rstSeen = true ∧ StepInv s.regs) →
    t.rstSeen = true ∧ StepInv t.regs

/-- R40, derived in the spec: in every state reachable from RST, by any sequence of inputs, its eight facts hold. -/
def Obligations.ReachableStatesSatisfyR40 : Prop :=
  ∀ (p : Ports) (ps : List Ports) (s t : State), p.rst = true → runOn (p :: ps) s = .next t →
    t.regs.lenIdx.toNat ≤ 5 ∧
    (t.regs.phase ≠ .idle → 1 ≤ t.regs.thresh.toNat) ∧
    (t.regs.phase = .syncWaitRise ∨ t.regs.phase = .syncWaitFall →
      t.regs.matchCnt.toNat ≤ t.regs.thresh.toNat ∧ (t.regs.matchCnt = t.regs.thresh ↔ t.regs.lock = true)) ∧
    (t.regs.errBits.toNat ≤ t.regs.countBits.toNat ∧ t.regs.countBits.toNat ≤ (total t.regs).toNat) ∧
    (t.regs.phase = .syncWaitRise ∨ t.regs.phase = .syncWaitFall → t.regs.countBits = 0 ∧ t.regs.errBits = 0) ∧
    (t.regs.phase = .countWaitRise ∨ t.regs.phase = .countWaitFall → t.regs.lock = true) ∧
    (t.regs.phase = .idle → t.regs.result = .complete → t.regs.countBits = total t.regs) ∧
    t.regs.lfsr ≠ 0x0000

/-! ### Outcomes and refusals (60_exceptions.md) -/

/-- R200: the codes of RESULT; each cause writes its code; and a code that appears was written by its one cause. -/
def Obligations.ResultCodesHaveOneCauseEach : Prop :=
  Result.code .none = 0 ∧ Result.code .complete = 1 ∧ Result.code .aborted = 2 ∧ Result.code .invalidLenIdx = 3 ∧
  Result.code .invalidThresh = 4 ∧
  ∀ s t : State, step s = .next t →
    (s.ports.rst = true ∨ StartsMeasurement s → t.regs.result = .none) ∧
    (Completes s → t.regs.result = .complete) ∧
    (s.ports.rst = false → s.ports.cmd = 0x20 → s.regs.phase ≠ .idle → t.regs.result = .aborted) ∧
    (s.ports.rst = false → s.ports.cmd = 0x10 → s.regs.phase = .idle →
      (s.ports.cfgLenIdx ∈ ([6, 7] : List LenIdx) → t.regs.result = .invalidLenIdx) ∧
      (s.ports.cfgLenIdx.toNat ≤ 5 → s.ports.cfgThresh = 0 → t.regs.result = .invalidThresh)) ∧
    (t.regs.result ≠ s.regs.result →
      (t.regs.result = .none → s.ports.rst = true ∨ StartsMeasurement s) ∧
      (t.regs.result = .complete → Completes s) ∧
      (t.regs.result = .aborted → s.ports.rst = false ∧ s.ports.cmd = 0x20 ∧ s.regs.phase ≠ .idle) ∧
      (t.regs.result = .invalidLenIdx →
        s.ports.rst = false ∧ s.ports.cmd = 0x10 ∧ s.regs.phase = .idle ∧ s.ports.cfgLenIdx ∈ ([6, 7] : List LenIdx)) ∧
      (t.regs.result = .invalidThresh →
        s.ports.rst = false ∧ s.ports.cmd = 0x10 ∧ s.regs.phase = .idle ∧ s.ports.cfgLenIdx.toNat ≤ 5 ∧
          s.ports.cfgThresh = 0))

/-- R206: the three refusals, each in exactly its kind of step; a step answers a next state exactly when the host keeps its
duty; and a refusal stands for the rest of the run. -/
def Obligations.RefusalsAreExactlyTheThreeKinds : Prop :=
  (∀ s : State,
    (step s = .refused .beforeReset ↔ s.ports.rst = false ∧ s.rstSeen = false) ∧
    (step s = .refused .illegalCommand ↔
      s.ports.rst = false ∧ s.rstSeen = true ∧ (CommandFields.ofWord s.ports.cmd).wf = false) ∧
    (step s = .refused .commandWhileBusy ↔
      s.ports.rst = false ∧ s.rstSeen = true ∧ s.regs.phase ≠ .idle ∧
        s.ports.cmd ∈ ([0x10, 0x30, 0x40, 0x50, 0x51] : List CmdWord)) ∧
    ((∃ t, step s = .next t) ↔ HostObeys s)) ∧
  (∀ (ps qs : List Ports) (s : State) (r : Refusal), runOn ps s = .refused r → runOn (ps ++ qs) s = .refused r)

/-- BUSY becomes 1 only by a valid MEASURE, and 0 only by completion, ABORT or RST (R37). -/
def Obligations.BusyChangesOnlyAtItsTransitions : Prop :=
  ∀ s t : State, step s = .next t →
    (busyOut s = false → (busyOut t = true ↔ StartsMeasurement s)) ∧
    (busyOut s = true → (busyOut t = false ↔
      s.ports.rst = true ∨ (s.ports.rst = false ∧ s.ports.cmd = 0x20) ∨ Completes s))

/-! ### Views and the read port (10_state.md R33, R34, 20_memory.md) -/

/-- R33: STATUS, field by field, with the codes of PHASE. The outputs are its three flags, whatever the ports are: LOCK_OUT is
LOCK, BUSY_OUT is BUSY, and EXPECTED_OUT is LFSR[15] (R13, R109). -/
def Obligations.StatusFields : Prop :=
  (Phase.code .idle = 0 ∧ Phase.code .syncWaitRise = 1 ∧ Phase.code .syncWaitFall = 2 ∧ Phase.code .countWaitRise = 3 ∧
    Phase.code .countWaitFall = 4) ∧
  ∀ r : Regs,
    ((statusView r).getLsbD 0 = true ↔ r.phase ≠ .idle) ∧
    (statusView r).getLsbD 1 = r.lock ∧
    (statusView r).getLsbD 2 = r.lfsr.getLsbD 15 ∧
    (statusView r).extractLsb' 3 3 = r.phase.code ∧
    (statusView r).extractLsb' 6 3 = r.result.code ∧
    (statusView r).extractLsb' 9 7 = 0 ∧
    (∀ s : State, s.regs = r →
      expectedOut s = r.lfsr.getLsbD 15 ∧ expectedOut s = (statusView r).getLsbD 2 ∧
      lockOut s = r.lock ∧ lockOut s = (statusView r).getLsbD 1 ∧
      (busyOut s = true ↔ r.phase ≠ .idle) ∧ busyOut s = (statusView r).getLsbD 0)

/-- R34: CONFIG, field by field, and the latches read as whole registers. -/
def Obligations.ConfigFields : Prop :=
  ∀ r : Regs, (configView r).getLsbD 0 = r.clkPol ∧ (configView r).getLsbD 1 = r.dataPol ∧
    (configView r).extractLsb' 2 3 = r.lenIdx ∧ (configView r).extractLsb' 5 11 = 0 ∧
    regRead 5 r = configView r ∧ regRead 6 r = r.thresh ∧ regRead 7 r = total r

/-- R51: the eight addresses of the read space. -/
def Obligations.ReadSpaceHoldsEveryRegister : Prop :=
  ∀ r : Regs, regRead 0 r = statusView r ∧ regRead 1 r = r.lfsr ∧ regRead 2 r = r.matchCnt ∧ regRead 3 r = r.errBits ∧
    regRead 4 r = r.countBits ∧ regRead 5 r = configView r ∧ regRead 6 r = r.thresh ∧ regRead 7 r = total r

/-- R52: RDATA is the register at RADDR in the state at the start of the step, and reading changes nothing: another RADDR gives
the same registers or the same refusal. -/
def Obligations.ReadingHasNoSideEffect : Prop :=
  ∀ (s : State) (a : RAddr),
    rdata s = regRead s.ports.raddr s.regs ∧
    rdata { s with ports := { s.ports with raddr := a } } = regRead a s.regs ∧
    SameOutcome id (step s) (step { s with ports := { s.ports with raddr := a } })

/-! ### Reset and hazards (70_reset_and_hazards.md) -/

/-- R232, derived in the spec: after a valid MEASURE in IDLE, a run depends on nothing from before it: two states whose steps are presented the same
ports from the MEASURE step on have the same registers, or end in the same refusal. -/
def Obligations.MeasurementForgetsThePast : Prop :=
  ∀ (s u : State) (m : Ports) (ps : List Ports), s.rstSeen = true → u.rstSeen = true → s.regs.phase = .idle →
    u.regs.phase = .idle → ValidMeasure m → SameOutcome id (runOn (m :: ps) s) (runOn (m :: ps) u)
end

