-- ==== Sys2Proof/Laws/Sequence.lean ====
section
/-! SUPPORT. The SequenceGenerator primitives, cell by cell (R101 to R105, R110). -/

namespace Sys2Proof.Machine

theorem getLsbD_setBit (v : Lfsr) (i j : Nat) (b : Bool) (hj : j < 16) :
    (setBit v i b).getLsbD j = if j = i then b else v.getLsbD j := by
  unfold setBit
  by_cases h : j = i
  · subst h; cases b <;> simp [hj]
  · cases b <;> simp [hj, h]

theorem peek_eq (l : Lfsr) : peek l = l.getLsbD 15 := rfl

theorem feedback_eq (l : Lfsr) : feedback l = (l.getLsbD 7 ^^ l.getLsbD 11) := rfl

/-- cell[0] after an advance is the feedback of the cells before it. -/
theorem advance_cell_zero (l : Lfsr) : (advance l).getLsbD 0 = feedback l := by
  refine (BitVec.getLsbD_append (x := l.extractLsb' 0 15) (y := BitVec.ofBool (feedback l)) (i := 0)).trans ?_
  simp

/-- Every other cell moves one index up. -/
theorem advance_cell_succ (l : Lfsr) (i : Nat) (hi : i < 15) : (advance l).getLsbD (i + 1) = l.getLsbD i := by
  refine (BitVec.getLsbD_append (x := l.extractLsb' 0 15) (y := BitVec.ofBool (feedback l)) (i := i + 1)).trans ?_
  simp [hi]

/-- Two LFSR values are equal when all sixteen cells are. -/
theorem lfsr_ext {l m : Lfsr} (h : ∀ i, i < 16 → l.getLsbD i = m.getLsbD i) : l = m :=
  BitVec.eq_of_getLsbD_eq fun i hi => h i hi

/-- An override writes cell[15] and leaves cells 0 to 14. -/
theorem forceOverride_cell (b : Bool) (l : Lfsr) (i : Nat) (hi : i < 16) :
    (forceOverride b l).getLsbD i = if i = 15 then b else l.getLsbD i :=
  getLsbD_setBit l 15 i b hi

/-- What an advance leaves depends on cells 0 to 14 only. -/
theorem advance_congr {l m : Lfsr} (h : ∀ i, i < 15 → l.getLsbD i = m.getLsbD i) : advance l = advance m := by
  apply lfsr_ext
  intro i hi
  cases i with
  | zero => rw [advance_cell_zero, advance_cell_zero, feedback_eq, feedback_eq, h 7 (by omega), h 11 (by omega)]
  | succ k => rw [advance_cell_succ l k (by omega), advance_cell_succ m k (by omega), h k (by omega)]

@[simp] theorem seqState_zero : seqState 0 = 0xFFFF := rfl
theorem seqState_succ (k : Nat) : seqState (k + 1) = advance (seqState k) := rfl
theorem seqBit_eq (k : Nat) : seqBit k = (seqState k).getLsbD 15 := rfl

theorem advances_seqState (n k : Nat) : advances n (seqState k) = seqState (k + n) := by
  induction n generalizing k with
  | zero => rfl
  | succ n ih => rw [advances, ← seqState_succ, ih, Nat.add_right_comm, Nat.add_assoc]

end Sys2Proof.Machine
end

