-- ==== Sys2Proof/Laws/State.lean ====
section
/-! SUPPORT. One lemma per field per register write, and per state update, true by unfolding. -/

namespace Sys2Proof.Machine

/-! ### setLfsr -/

section
variable (v : Lfsr) (r : Regs)
@[simp] theorem Regs.setLfsr_lfsr : (r.setLfsr v).lfsr = v := rfl
@[simp] theorem Regs.setLfsr_matchCnt : (r.setLfsr v).matchCnt = r.matchCnt := rfl
@[simp] theorem Regs.setLfsr_errBits : (r.setLfsr v).errBits = r.errBits := rfl
@[simp] theorem Regs.setLfsr_countBits : (r.setLfsr v).countBits = r.countBits := rfl
@[simp] theorem Regs.setLfsr_phase : (r.setLfsr v).phase = r.phase := rfl
@[simp] theorem Regs.setLfsr_lock : (r.setLfsr v).lock = r.lock := rfl
@[simp] theorem Regs.setLfsr_result : (r.setLfsr v).result = r.result := rfl
@[simp] theorem Regs.setLfsr_clkPol : (r.setLfsr v).clkPol = r.clkPol := rfl
@[simp] theorem Regs.setLfsr_dataPol : (r.setLfsr v).dataPol = r.dataPol := rfl
@[simp] theorem Regs.setLfsr_lenIdx : (r.setLfsr v).lenIdx = r.lenIdx := rfl
@[simp] theorem Regs.setLfsr_thresh : (r.setLfsr v).thresh = r.thresh := rfl
end

/-! ### setMatchCnt -/

section
variable (v : Count) (r : Regs)
@[simp] theorem Regs.setMatchCnt_lfsr : (r.setMatchCnt v).lfsr = r.lfsr := rfl
@[simp] theorem Regs.setMatchCnt_matchCnt : (r.setMatchCnt v).matchCnt = v := rfl
@[simp] theorem Regs.setMatchCnt_errBits : (r.setMatchCnt v).errBits = r.errBits := rfl
@[simp] theorem Regs.setMatchCnt_countBits : (r.setMatchCnt v).countBits = r.countBits := rfl
@[simp] theorem Regs.setMatchCnt_phase : (r.setMatchCnt v).phase = r.phase := rfl
@[simp] theorem Regs.setMatchCnt_lock : (r.setMatchCnt v).lock = r.lock := rfl
@[simp] theorem Regs.setMatchCnt_result : (r.setMatchCnt v).result = r.result := rfl
@[simp] theorem Regs.setMatchCnt_clkPol : (r.setMatchCnt v).clkPol = r.clkPol := rfl
@[simp] theorem Regs.setMatchCnt_dataPol : (r.setMatchCnt v).dataPol = r.dataPol := rfl
@[simp] theorem Regs.setMatchCnt_lenIdx : (r.setMatchCnt v).lenIdx = r.lenIdx := rfl
@[simp] theorem Regs.setMatchCnt_thresh : (r.setMatchCnt v).thresh = r.thresh := rfl
end

/-! ### setErrBits -/

section
variable (v : Count) (r : Regs)
@[simp] theorem Regs.setErrBits_lfsr : (r.setErrBits v).lfsr = r.lfsr := rfl
@[simp] theorem Regs.setErrBits_matchCnt : (r.setErrBits v).matchCnt = r.matchCnt := rfl
@[simp] theorem Regs.setErrBits_errBits : (r.setErrBits v).errBits = v := rfl
@[simp] theorem Regs.setErrBits_countBits : (r.setErrBits v).countBits = r.countBits := rfl
@[simp] theorem Regs.setErrBits_phase : (r.setErrBits v).phase = r.phase := rfl
@[simp] theorem Regs.setErrBits_lock : (r.setErrBits v).lock = r.lock := rfl
@[simp] theorem Regs.setErrBits_result : (r.setErrBits v).result = r.result := rfl
@[simp] theorem Regs.setErrBits_clkPol : (r.setErrBits v).clkPol = r.clkPol := rfl
@[simp] theorem Regs.setErrBits_dataPol : (r.setErrBits v).dataPol = r.dataPol := rfl
@[simp] theorem Regs.setErrBits_lenIdx : (r.setErrBits v).lenIdx = r.lenIdx := rfl
@[simp] theorem Regs.setErrBits_thresh : (r.setErrBits v).thresh = r.thresh := rfl
end

/-! ### setCountBits -/

section
variable (v : Count) (r : Regs)
@[simp] theorem Regs.setCountBits_lfsr : (r.setCountBits v).lfsr = r.lfsr := rfl
@[simp] theorem Regs.setCountBits_matchCnt : (r.setCountBits v).matchCnt = r.matchCnt := rfl
@[simp] theorem Regs.setCountBits_errBits : (r.setCountBits v).errBits = r.errBits := rfl
@[simp] theorem Regs.setCountBits_countBits : (r.setCountBits v).countBits = v := rfl
@[simp] theorem Regs.setCountBits_phase : (r.setCountBits v).phase = r.phase := rfl
@[simp] theorem Regs.setCountBits_lock : (r.setCountBits v).lock = r.lock := rfl
@[simp] theorem Regs.setCountBits_result : (r.setCountBits v).result = r.result := rfl
@[simp] theorem Regs.setCountBits_clkPol : (r.setCountBits v).clkPol = r.clkPol := rfl
@[simp] theorem Regs.setCountBits_dataPol : (r.setCountBits v).dataPol = r.dataPol := rfl
@[simp] theorem Regs.setCountBits_lenIdx : (r.setCountBits v).lenIdx = r.lenIdx := rfl
@[simp] theorem Regs.setCountBits_thresh : (r.setCountBits v).thresh = r.thresh := rfl
end

/-! ### setPhase -/

section
variable (v : Phase) (r : Regs)
@[simp] theorem Regs.setPhase_lfsr : (r.setPhase v).lfsr = r.lfsr := rfl
@[simp] theorem Regs.setPhase_matchCnt : (r.setPhase v).matchCnt = r.matchCnt := rfl
@[simp] theorem Regs.setPhase_errBits : (r.setPhase v).errBits = r.errBits := rfl
@[simp] theorem Regs.setPhase_countBits : (r.setPhase v).countBits = r.countBits := rfl
@[simp] theorem Regs.setPhase_phase : (r.setPhase v).phase = v := rfl
@[simp] theorem Regs.setPhase_lock : (r.setPhase v).lock = r.lock := rfl
@[simp] theorem Regs.setPhase_result : (r.setPhase v).result = r.result := rfl
@[simp] theorem Regs.setPhase_clkPol : (r.setPhase v).clkPol = r.clkPol := rfl
@[simp] theorem Regs.setPhase_dataPol : (r.setPhase v).dataPol = r.dataPol := rfl
@[simp] theorem Regs.setPhase_lenIdx : (r.setPhase v).lenIdx = r.lenIdx := rfl
@[simp] theorem Regs.setPhase_thresh : (r.setPhase v).thresh = r.thresh := rfl
end

/-! ### setLock -/

section
variable (v : Bool) (r : Regs)
@[simp] theorem Regs.setLock_lfsr : (r.setLock v).lfsr = r.lfsr := rfl
@[simp] theorem Regs.setLock_matchCnt : (r.setLock v).matchCnt = r.matchCnt := rfl
@[simp] theorem Regs.setLock_errBits : (r.setLock v).errBits = r.errBits := rfl
@[simp] theorem Regs.setLock_countBits : (r.setLock v).countBits = r.countBits := rfl
@[simp] theorem Regs.setLock_phase : (r.setLock v).phase = r.phase := rfl
@[simp] theorem Regs.setLock_lock : (r.setLock v).lock = v := rfl
@[simp] theorem Regs.setLock_result : (r.setLock v).result = r.result := rfl
@[simp] theorem Regs.setLock_clkPol : (r.setLock v).clkPol = r.clkPol := rfl
@[simp] theorem Regs.setLock_dataPol : (r.setLock v).dataPol = r.dataPol := rfl
@[simp] theorem Regs.setLock_lenIdx : (r.setLock v).lenIdx = r.lenIdx := rfl
@[simp] theorem Regs.setLock_thresh : (r.setLock v).thresh = r.thresh := rfl
end

/-! ### setResult -/

section
variable (v : Result) (r : Regs)
@[simp] theorem Regs.setResult_lfsr : (r.setResult v).lfsr = r.lfsr := rfl
@[simp] theorem Regs.setResult_matchCnt : (r.setResult v).matchCnt = r.matchCnt := rfl
@[simp] theorem Regs.setResult_errBits : (r.setResult v).errBits = r.errBits := rfl
@[simp] theorem Regs.setResult_countBits : (r.setResult v).countBits = r.countBits := rfl
@[simp] theorem Regs.setResult_phase : (r.setResult v).phase = r.phase := rfl
@[simp] theorem Regs.setResult_lock : (r.setResult v).lock = r.lock := rfl
@[simp] theorem Regs.setResult_result : (r.setResult v).result = v := rfl
@[simp] theorem Regs.setResult_clkPol : (r.setResult v).clkPol = r.clkPol := rfl
@[simp] theorem Regs.setResult_dataPol : (r.setResult v).dataPol = r.dataPol := rfl
@[simp] theorem Regs.setResult_lenIdx : (r.setResult v).lenIdx = r.lenIdx := rfl
@[simp] theorem Regs.setResult_thresh : (r.setResult v).thresh = r.thresh := rfl
end

/-! ### setLatches -/

section
variable (cp dp : Bool) (li : LenIdx) (th : Thresh) (r : Regs)
@[simp] theorem Regs.setLatches_lfsr : (r.setLatches cp dp li th).lfsr = r.lfsr := rfl
@[simp] theorem Regs.setLatches_matchCnt : (r.setLatches cp dp li th).matchCnt = r.matchCnt := rfl
@[simp] theorem Regs.setLatches_errBits : (r.setLatches cp dp li th).errBits = r.errBits := rfl
@[simp] theorem Regs.setLatches_countBits : (r.setLatches cp dp li th).countBits = r.countBits := rfl
@[simp] theorem Regs.setLatches_phase : (r.setLatches cp dp li th).phase = r.phase := rfl
@[simp] theorem Regs.setLatches_lock : (r.setLatches cp dp li th).lock = r.lock := rfl
@[simp] theorem Regs.setLatches_result : (r.setLatches cp dp li th).result = r.result := rfl
@[simp] theorem Regs.setLatches_clkPol : (r.setLatches cp dp li th).clkPol = cp := rfl
@[simp] theorem Regs.setLatches_dataPol : (r.setLatches cp dp li th).dataPol = dp := rfl
@[simp] theorem Regs.setLatches_lenIdx : (r.setLatches cp dp li th).lenIdx = li := rfl
@[simp] theorem Regs.setLatches_thresh : (r.setLatches cp dp li th).thresh = th := rfl
end

/-! ### State updates -/

section
variable (r : Regs) (p : Ports) (s : State)
@[simp] theorem State.setRegs_regs : (s.setRegs r).regs = r := rfl
@[simp] theorem State.setRegs_rstSeen : (s.setRegs r).rstSeen = s.rstSeen := rfl
@[simp] theorem State.setRegs_ports : (s.setRegs r).ports = s.ports := rfl
@[simp] theorem State.setRegs_script : (s.setRegs r).script = s.script := rfl
@[simp] theorem State.setRegs_draws : (s.setRegs r).draws = s.draws := rfl
@[simp] theorem State.setPorts_regs : (s.setPorts p).regs = s.regs := rfl
@[simp] theorem State.setPorts_rstSeen : (s.setPorts p).rstSeen = s.rstSeen := rfl
@[simp] theorem State.setPorts_ports : (s.setPorts p).ports = p := rfl
@[simp] theorem State.setPorts_script : (s.setPorts p).script = s.script := rfl
@[simp] theorem State.setPorts_draws : (s.setPorts p).draws = s.draws := rfl
@[simp] theorem applyReset_regs : (applyReset s).regs = Regs.reset := rfl
@[simp] theorem applyReset_rstSeen : (applyReset s).rstSeen = true := rfl
@[simp] theorem applyReset_ports : (applyReset s).ports = s.ports := rfl
@[simp] theorem applyReset_script : (applyReset s).script = s.script := rfl
@[simp] theorem applyReset_draws : (applyReset s).draws = s.draws := rfl
@[simp] theorem State.withFetchWord_regs (n w : Nat) : (s.withFetchWord n w).regs = s.regs := rfl
@[simp] theorem State.withFetchWord_rstSeen (n w : Nat) : (s.withFetchWord n w).rstSeen = true := rfl
@[simp] theorem State.withFetchWord_script (n w : Nat) : (s.withFetchWord n w).script = s.script := rfl
@[simp] theorem State.withFetchWord_draws (n w : Nat) : (s.withFetchWord n w).draws = s.draws := rfl
@[simp] theorem State.withFetchWord_cmd (n w : Nat) : (s.withFetchWord n w).ports.cmd = commandWord n w := rfl
@[simp] theorem State.withFetchWord_rst (n w : Nat) : (s.withFetchWord n w).ports.rst = false := rfl
end

/-! ### The inputs move on: the registers and the reset mark stand -/

@[simp] theorem nextInputs_regs (s : State) : (nextInputs s).regs = s.regs := by
  unfold nextInputs; split <;> rfl

@[simp] theorem nextInputs_rstSeen (s : State) : (nextInputs s).rstSeen = s.rstSeen := by
  unfold nextInputs; split <;> rfl

/-- With a script left, its first record stands on the ports of the next step. -/
theorem nextInputs_of_script (s : State) (p : Ports) (ps : List Ports) (h : s.script = p :: ps) :
    nextInputs s = { s with ports := p, script := ps } := by
  unfold nextInputs; rw [h]

/-- With no script left, the host issues nothing and the two lines are free draws. -/
theorem nextInputs_of_nil (s : State) (h : s.script = []) :
    nextInputs s = { s with ports := undrivenPorts s.ports s.draws, draws := s.draws + 1 } := by
  unfold nextInputs; rw [h]

@[simp] theorem thenNextInputs_next (s : State) : thenNextInputs (.next s) = .next (nextInputs s) := rfl
@[simp] theorem thenNextInputs_refused (r : Refusal) : thenNextInputs (.refused r) = .refused r := rfl

end Sys2Proof.Machine
end

