-- ==== Sys2Proof/Laws/Actions.lean ====
section
/-! SUPPORT. What each FSM action and each shared operation of the meanings does, register by register: the provers cite
these instead of unfolding. -/

namespace Sys2Proof.Machine

/-! ### Flags and operands -/

theorem busy_iff (r : Regs) : busy r = true ↔ r.phase ≠ .idle := by simp [busy]
theorem busy_false_iff (r : Regs) : busy r = false ↔ r.phase = .idle := by simp [busy]

theorem lenIdxInvalid_iff (p : Ports) : lenIdxInvalid p = true ↔ 5 < p.cfgLenIdx.toNat := by
  unfold lenIdxInvalid
  rw [decide_eq_true_iff]
  exact Nat.succ_le_iff

theorem threshInvalid_iff (p : Ports) : threshInvalid p = true ↔ p.cfgThresh = 0 := by simp [threshInvalid]

/-- Every entry of the table is at least 1000 (R9, R10). -/
theorem lengthAt_ge (i : LenIdx) (h : i.toNat ≤ 5) : 1000 ≤ (lengthAt i).toNat := by
  have : i = 0 ∨ i = 1 ∨ i = 2 ∨ i = 3 ∨ i = 4 ∨ i = 5 := by
    revert h; revert i; decide
  rcases this with rfl | rfl | rfl | rfl | rfl | rfl <;> decide

/-! ### Counts and thresholds as numbers: what their widths (R9) give -/

theorem Count.toNat_lt (c : Count) : c.toNat < 65536 := c.isLt

theorem Thresh.toNat_lt (t : Thresh) : t.toNat < 65536 := t.isLt

theorem Count.toNat_inj {c d : Count} : c.toNat = d.toNat ↔ c = d := BitVec.toNat_inj

theorem Thresh.ne_zero_iff {t : Thresh} : t ≠ 0 ↔ 0 < t.toNat :=
  ⟨fun h => Nat.pos_of_ne_zero fun e => h (BitVec.eq_of_toNat_eq e), fun h e => by subst e; exact absurd h (Nat.lt_irrefl 0)⟩

/-- An addition of 1 below the top of the range does not wrap (R171). -/
theorem Count.toNat_add_one {c : Count} (h : c.toNat < 65535) : (c + 1).toNat = c.toNat + 1 :=
  (BitVec.toNat_add c 1).trans (Nat.mod_eq_of_lt (Nat.add_lt_of_lt_sub h))

theorem Count.ofNat_add_one (n : Nat) : (BitVec.ofNat 16 n + 1 : Count) = BitVec.ofNat 16 (n + 1) :=
  (BitVec.ofNat_add n 1).symm

/-! ### The read port: at the widths of R9 no register is cut or widened -/

section
variable (r : Regs)
@[simp] theorem regRead_status : regRead 0 r = statusView r := rfl
@[simp] theorem regRead_lfsr : regRead 1 r = r.lfsr := BitVec.setWidth_eq r.lfsr
@[simp] theorem regRead_matchCnt : regRead 2 r = r.matchCnt := BitVec.setWidth_eq r.matchCnt
@[simp] theorem regRead_errBits : regRead 3 r = r.errBits := BitVec.setWidth_eq r.errBits
@[simp] theorem regRead_countBits : regRead 4 r = r.countBits := BitVec.setWidth_eq r.countBits
@[simp] theorem regRead_config : regRead 5 r = configView r := rfl
@[simp] theorem regRead_thresh : regRead 6 r = r.thresh := BitVec.setWidth_eq r.thresh
@[simp] theorem regRead_total : regRead 7 r = total r := BitVec.setWidth_eq (total r)
end

/-! ### SYNC-BIT -/

/-- At the widths of R9 the lock test on numbers is equality of the two values. -/
theorem lockTransition_eq (r : Regs) :
    lockTransition r = if r.matchCnt = r.thresh then r.setLock true else r := by
  unfold lockTransition
  exact if_congr (beq_iff_eq.trans ⟨fun h => BitVec.eq_of_toNat_eq h, fun h => congrArg BitVec.toNat h⟩) rfl rfl

section
variable (bit : Bool) (r : Regs)

/-- The override of a mismatch is lost in the advance of the same step, so SYNC-BIT always advances the LFSR it found. -/
@[simp] theorem syncBit_lfsr : (syncBit bit r).lfsr = advance r.lfsr := by
  have h : (syncBit bit r).lfsr = advance (syncCompare bit r).lfsr := by
    simp only [syncBit, lockTransition]; split <;> rfl
  rw [h, syncCompare]
  split
  · rfl
  · exact advance_congr fun i hi => by
      simpa using (forceOverride_cell (!peek r.lfsr) r.lfsr i (by omega)).trans (if_neg (by omega))

theorem syncBit_matchCnt : (syncBit bit r).matchCnt = if bit = peek r.lfsr then r.matchCnt + 1 else 0 := by
  simp only [syncBit, lockTransition, syncCompare]
  by_cases h : bit = peek r.lfsr <;> simp only [h, beq_self_eq_true, beq_iff_eq, if_true, if_false] <;> split <;> rfl

theorem syncBit_lock : (syncBit bit r).lock = (r.lock || (syncBit bit r).matchCnt == r.thresh) := by
  have ht : (syncCompare bit r).thresh = r.thresh := by unfold syncCompare; split <;> rfl
  have hl : (syncCompare bit r).lock = r.lock := by unfold syncCompare; split <;> rfl
  have hm : (syncBit bit r).matchCnt = (syncCompare bit r).matchCnt := by
    simp only [syncBit, lockTransition]; split <;> rfl
  rw [hm]
  simp only [syncBit, lockTransition_eq, Regs.setPhase_lock, Regs.setLfsr_matchCnt, Regs.setLfsr_thresh, ht]
  split <;> simp_all

@[simp] theorem syncBit_phase : (syncBit bit r).phase = .syncWaitFall := rfl

/-! SYNC-BIT leaves every other register. -/

@[simp] theorem syncBit_errBits : (syncBit bit r).errBits = r.errBits := by
  simp only [syncBit, lockTransition, syncCompare]; split <;> split <;> rfl
@[simp] theorem syncBit_countBits : (syncBit bit r).countBits = r.countBits := by
  simp only [syncBit, lockTransition, syncCompare]; split <;> split <;> rfl
@[simp] theorem syncBit_result : (syncBit bit r).result = r.result := by
  simp only [syncBit, lockTransition, syncCompare]; split <;> split <;> rfl
@[simp] theorem syncBit_clkPol : (syncBit bit r).clkPol = r.clkPol := by
  simp only [syncBit, lockTransition, syncCompare]; split <;> split <;> rfl
@[simp] theorem syncBit_dataPol : (syncBit bit r).dataPol = r.dataPol := by
  simp only [syncBit, lockTransition, syncCompare]; split <;> split <;> rfl
@[simp] theorem syncBit_lenIdx : (syncBit bit r).lenIdx = r.lenIdx := by
  simp only [syncBit, lockTransition, syncCompare]; split <;> split <;> rfl
@[simp] theorem syncBit_thresh : (syncBit bit r).thresh = r.thresh := by
  simp only [syncBit, lockTransition, syncCompare]; split <;> split <;> rfl

/-! ### COUNT-BIT -/

@[simp] theorem countBit_lfsr : (countBit bit r).lfsr = advance r.lfsr := by
  simp only [countBit]; split <;> rfl

theorem countBit_errBits : (countBit bit r).errBits = if bit = peek r.lfsr then r.errBits else r.errBits + 1 := by
  simp only [countBit]
  by_cases h : bit = peek r.lfsr <;> simp only [bne_iff_ne, ne_eq, h, not_true_eq_false, not_false_eq_true, if_true, if_false] <;> rfl

@[simp] theorem countBit_countBits : (countBit bit r).countBits = r.countBits + 1 := by
  simp only [countBit]; split <;> rfl

@[simp] theorem countBit_phase : (countBit bit r).phase = .countWaitFall := rfl

/-! COUNT-BIT leaves every other register. -/

@[simp] theorem countBit_matchCnt : (countBit bit r).matchCnt = r.matchCnt := by
  simp only [countBit]; split <;> rfl
@[simp] theorem countBit_lock : (countBit bit r).lock = r.lock := by
  simp only [countBit]; split <;> rfl
@[simp] theorem countBit_result : (countBit bit r).result = r.result := by
  simp only [countBit]; split <;> rfl
@[simp] theorem countBit_clkPol : (countBit bit r).clkPol = r.clkPol := by
  simp only [countBit]; split <;> rfl
@[simp] theorem countBit_dataPol : (countBit bit r).dataPol = r.dataPol := by
  simp only [countBit]; split <;> rfl
@[simp] theorem countBit_lenIdx : (countBit bit r).lenIdx = r.lenIdx := by
  simp only [countBit]; split <;> rfl
@[simp] theorem countBit_thresh : (countBit bit r).thresh = r.thresh := by
  simp only [countBit]; split <;> rfl

/-! ### SYNC-FALL, COUNT-FALL, the end and the start of a measurement -/

theorem syncFall_phase : (syncFall r).phase = if r.lock then .countWaitRise else .syncWaitRise := rfl
@[simp] theorem syncFall_lfsr : (syncFall r).lfsr = r.lfsr := rfl
@[simp] theorem syncFall_matchCnt : (syncFall r).matchCnt = r.matchCnt := rfl
@[simp] theorem syncFall_errBits : (syncFall r).errBits = r.errBits := rfl
@[simp] theorem syncFall_countBits : (syncFall r).countBits = r.countBits := rfl
@[simp] theorem syncFall_lock : (syncFall r).lock = r.lock := rfl
@[simp] theorem syncFall_result : (syncFall r).result = r.result := rfl
@[simp] theorem syncFall_clkPol : (syncFall r).clkPol = r.clkPol := rfl
@[simp] theorem syncFall_dataPol : (syncFall r).dataPol = r.dataPol := rfl
@[simp] theorem syncFall_lenIdx : (syncFall r).lenIdx = r.lenIdx := rfl
@[simp] theorem syncFall_thresh : (syncFall r).thresh = r.thresh := rfl

theorem countFall_phase : (countFall r).phase = if r.countBits = total r then .idle else .countWaitRise := by
  simp only [countFall, beq_iff_eq]; split <;> rfl
theorem countFall_result : (countFall r).result = if r.countBits = total r then .complete else r.result := by
  simp only [countFall, beq_iff_eq]; split <;> rfl
@[simp] theorem countFall_lfsr : (countFall r).lfsr = r.lfsr := by
  simp only [countFall]; split <;> rfl
@[simp] theorem countFall_matchCnt : (countFall r).matchCnt = r.matchCnt := by
  simp only [countFall]; split <;> rfl
@[simp] theorem countFall_errBits : (countFall r).errBits = r.errBits := by
  simp only [countFall]; split <;> rfl
@[simp] theorem countFall_countBits : (countFall r).countBits = r.countBits := by
  simp only [countFall]; split <;> rfl
@[simp] theorem countFall_lock : (countFall r).lock = r.lock := by
  simp only [countFall]; split <;> rfl
@[simp] theorem countFall_clkPol : (countFall r).clkPol = r.clkPol := by
  simp only [countFall]; split <;> rfl
@[simp] theorem countFall_dataPol : (countFall r).dataPol = r.dataPol := by
  simp only [countFall]; split <;> rfl
@[simp] theorem countFall_lenIdx : (countFall r).lenIdx = r.lenIdx := by
  simp only [countFall]; split <;> rfl
@[simp] theorem countFall_thresh : (countFall r).thresh = r.thresh := by
  simp only [countFall]; split <;> rfl

section
variable (code : Result)
@[simp] theorem endMeasurement_lfsr : (endMeasurement code r).lfsr = r.lfsr := rfl
@[simp] theorem endMeasurement_matchCnt : (endMeasurement code r).matchCnt = r.matchCnt := rfl
@[simp] theorem endMeasurement_errBits : (endMeasurement code r).errBits = r.errBits := rfl
@[simp] theorem endMeasurement_countBits : (endMeasurement code r).countBits = r.countBits := rfl
@[simp] theorem endMeasurement_phase : (endMeasurement code r).phase = .idle := rfl
@[simp] theorem endMeasurement_lock : (endMeasurement code r).lock = r.lock := rfl
@[simp] theorem endMeasurement_result : (endMeasurement code r).result = code := rfl
@[simp] theorem endMeasurement_clkPol : (endMeasurement code r).clkPol = r.clkPol := rfl
@[simp] theorem endMeasurement_dataPol : (endMeasurement code r).dataPol = r.dataPol := rfl
@[simp] theorem endMeasurement_lenIdx : (endMeasurement code r).lenIdx = r.lenIdx := rfl
@[simp] theorem endMeasurement_thresh : (endMeasurement code r).thresh = r.thresh := rfl
end

section
variable (p : Ports)
@[simp] theorem startMeasurement_lfsr : (startMeasurement p r).lfsr = 0xFFFF := rfl
@[simp] theorem startMeasurement_matchCnt : (startMeasurement p r).matchCnt = 0 := rfl
@[simp] theorem startMeasurement_errBits : (startMeasurement p r).errBits = 0 := rfl
@[simp] theorem startMeasurement_countBits : (startMeasurement p r).countBits = 0 := rfl
@[simp] theorem startMeasurement_phase : (startMeasurement p r).phase = .syncWaitRise := rfl
@[simp] theorem startMeasurement_lock : (startMeasurement p r).lock = false := rfl
@[simp] theorem startMeasurement_result : (startMeasurement p r).result = .none := rfl
@[simp] theorem startMeasurement_clkPol : (startMeasurement p r).clkPol = p.cfgClkPol := rfl
@[simp] theorem startMeasurement_dataPol : (startMeasurement p r).dataPol = p.cfgDataPol := rfl
@[simp] theorem startMeasurement_lenIdx : (startMeasurement p r).lenIdx = p.cfgLenIdx := rfl
@[simp] theorem startMeasurement_thresh : (startMeasurement p r).thresh = p.cfgThresh := rfl
end

end

/-! ### The poll step, by phase and logical clock -/

section
variable {p : Ports} {r : Regs}

theorem poll_idle (h : r.phase = .idle) : poll p r = r := by simp [poll, h]

theorem poll_rise_hold (h : r.phase = .syncWaitRise ∨ r.phase = .countWaitRise) (hc : logicalClock p r = false) :
    poll p r = r := by rcases h with h | h <;> simp [poll, h, riseWait, hc]

theorem poll_fall_hold (h : r.phase = .syncWaitFall ∨ r.phase = .countWaitFall) (hc : logicalClock p r = true) :
    poll p r = r := by rcases h with h | h <;> simp [poll, h, fallWait, hc]

theorem poll_syncBit (h : r.phase = .syncWaitRise) (hc : logicalClock p r = true) :
    poll p r = syncBit (sampledBit p r) r := by simp [poll, h, riseWait, hc]

theorem poll_syncFall (h : r.phase = .syncWaitFall) (hc : logicalClock p r = false) : poll p r = syncFall r := by
  simp [poll, h, fallWait, hc]

theorem poll_countBit (h : r.phase = .countWaitRise) (hc : logicalClock p r = true) :
    poll p r = countBit (sampledBit p r) r := by simp [poll, h, riseWait, hc]

theorem poll_countFall (h : r.phase = .countWaitFall) (hc : logicalClock p r = false) : poll p r = countFall r := by
  simp [poll, h, fallWait, hc]

/-- What a poll step can do, said once: nothing, or the one action of its phase. -/
theorem poll_cases : poll p r = r ∨
    (r.phase = .syncWaitRise ∧ logicalClock p r = true ∧ poll p r = syncBit (sampledBit p r) r) ∨
    (r.phase = .syncWaitFall ∧ logicalClock p r = false ∧ poll p r = syncFall r) ∨
    (r.phase = .countWaitRise ∧ logicalClock p r = true ∧ poll p r = countBit (sampledBit p r) r) ∨
    (r.phase = .countWaitFall ∧ logicalClock p r = false ∧ poll p r = countFall r) := by
  cases hp : r.phase <;> cases hc : logicalClock p r <;> simp [poll, hp, hc, riseWait, fallWait]

end

/-! ### Commands -/

/-- A command of IDLE in IDLE. -/
theorem whenIdle_idle {f : Regs → Regs} {s : State} (h : s.regs.phase = .idle) :
    whenIdle f s = .next (s.setRegs (f s.regs)) := by simp [whenIdle, busy, h]

/-- A command of IDLE while busy. -/
theorem whenIdle_busy {f : Regs → Regs} {s : State} (h : s.regs.phase ≠ .idle) :
    whenIdle f s = .refused .commandWhileBusy := by simp [whenIdle, busy, h]

/-- If a command of IDLE answers a next state, the core was idle and the registers are its effect. -/
theorem whenIdle_next {f : Regs → Regs} {s t : State} (h : whenIdle f s = .next t) :
    s.regs.phase = .idle ∧ t = s.setRegs (f s.regs) := by
  by_cases hp : s.regs.phase = .idle
  · rw [whenIdle_idle hp] at h
    exact ⟨hp, by simpa using h.symm⟩
  · rw [whenIdle_busy hp] at h; cases h

/-! The meaning each arm calls, unfolded to its shared operation. -/

section
variable (s : State)

theorem exec_nop : exec .nop s = .next (s.setRegs (poll s.ports s.regs)) := rfl

theorem exec_measure : exec .measure s =
    whenIdle (fun r => if lenIdxInvalid s.ports || threshInvalid s.ports then invalidConfiguration s.ports r
      else startMeasurement s.ports r) s := rfl

theorem exec_abort : exec .abort s =
    .next (s.setRegs (if busy s.regs then endMeasurement .aborted s.regs else s.regs)) := rfl

theorem exec_sgReset : exec .sgReset s = whenIdle (fun r => r.setLfsr reseed) s := rfl

theorem exec_sgAdvance : exec .sgAdvance s = whenIdle (fun r => r.setLfsr (advance r.lfsr)) s := rfl

theorem exec_sgForce (b : Bool) : exec (.sgForce b) s = whenIdle (fun r => r.setLfsr (forceOverride b r.lfsr)) s := rfl

end

/-- What a valid MEASURE writes: every register (R162). -/
theorem startMeasurement_eq (p : Ports) (r : Regs) : startMeasurement p r =
    { lfsr := 0xFFFF, matchCnt := 0, errBits := 0, countBits := 0, phase := .syncWaitRise, lock := false, result := .none,
      clkPol := p.cfgClkPol, dataPol := p.cfgDataPol, lenIdx := p.cfgLenIdx, thresh := p.cfgThresh } := rfl

/-- Whatever a command does, it changes registers only. -/
theorem exec_next {i : Instr} {s t : State} (h : exec i s = .next t) : t = s.setRegs t.regs := by
  cases i with
  | nop => cases h; rfl
  | abort => cases h; rfl
  | measure => rw [exec_measure] at h; obtain ⟨-, rfl⟩ := whenIdle_next h; rfl
  | sgReset => rw [exec_sgReset] at h; obtain ⟨-, rfl⟩ := whenIdle_next h; rfl
  | sgAdvance => rw [exec_sgAdvance] at h; obtain ⟨-, rfl⟩ := whenIdle_next h; rfl
  | sgForce b => rw [exec_sgForce] at h; obtain ⟨-, rfl⟩ := whenIdle_next h; rfl

end Sys2Proof.Machine
end

