-- ==== Sys2Proof/Laws/Decode.lean ====
section
/-! SUPPORT. What the fields of a word and the decoder do, each said once. -/

namespace Sys2Proof

/-- The decoder and the legality check of WellFormed read the same three fields (R70). -/
theorem fields_ofWord (w : CmdWord) :
    CommandFields.ofWord w = { op := opField w, rsv := rsvField w, b := operandField w } := rfl

theorem withoutOperand_ok {b : Bool} {i j : Instr} : withoutOperand b i = .ok j ↔ b = false ∧ j = i := by
  unfold withoutOperand; split <;> simp_all [eq_comm]

theorem rsvField_encode (i : Instr) : rsvField (encode i) = 0 := by
  cases i with
  | sgForce b => cases b <;> decide
  | _ => decide

theorem opField_encode (i : Instr) : opField (encode i) = opOf i := by
  cases i with
  | sgForce b => cases b <;> decide
  | _ => decide

theorem operandField_encode (i : Instr) : operandField (encode i) = operandOf i := by
  cases i with
  | sgForce b => cases b <;> decide
  | _ => decide

/-- A word is its three fields put together (R70). -/
theorem word_of_fields (w : CmdWord) : (opField w ++ rsvField w) ++ BitVec.ofBool (operandField w) = w := by
  apply BitVec.eq_of_getLsbD_eq
  intro i hi
  simp only [opField, rsvField, operandField, BitVec.getLsbD_append, BitVec.getLsbD_extractLsb']
  have : i < 8 := hi
  interval_cases i <;> simp

/-- What an operation code and an operand bit decode to, said once (R72). -/
theorem decodeOp_ok (op : BitVec 4) (b : Bool) (i : Instr) :
    decodeOp op.toNat b = .ok i ↔ opOf i = op ∧ operandOf i = b := by
  cases i with
  | sgForce c => revert op b c; decide
  | _ => revert op b; decide

/-- The decoder answers the command whose three fields the word has, and nothing else (R72, R74). -/
theorem decode_ok_iff_fields (w : CmdWord) (i : Instr) :
    decode w = .ok i ↔ rsvField w = 0 ∧ opOf i = opField w ∧ operandOf i = operandField w := by
  unfold decode
  split
  · rename_i h; simp [h, decodeOp_ok]
  · rename_i h; exact ⟨fun e => (nomatch e), fun e => absurd e.1 h⟩

/-- A word that decodes is the encoding of what it decodes to. -/
theorem encode_of_decode {w : CmdWord} {i : Instr} (h : decode w = .ok i) : encode i = w := by
  obtain ⟨h0, hop, hb⟩ := (decode_ok_iff_fields w i).1 h
  rw [encode, hop, hb, ← h0, word_of_fields]

end Sys2Proof
end

