-- ==== Sys2Proof/Laws/PerInstr.lean ====
section
/-! SUPPORT. A fact of every command as syntax: its word has the legal fields of format C (R70, R72, R74). -/

namespace Sys2Proof.Laws.EncodesInFormatC

/-- The command's word is legal, and its OP and B fields are the command's (R70, R72, R74). -/
def Statement (i : Instr) : Prop :=
  (CommandFields.ofWord (encode i)).wf = true ∧ opField (encode i) = opOf i ∧ operandField (encode i) = operandOf i

theorem nop : Statement .nop := by unfold Statement; decide
theorem measure : Statement .measure := by unfold Statement; decide
theorem abort : Statement .abort := by unfold Statement; decide
theorem sgReset : Statement .sgReset := by unfold Statement; decide
theorem sgAdvance : Statement .sgAdvance := by unfold Statement; decide
theorem sgForce (b : Bool) : Statement (.sgForce b) := by unfold Statement; cases b <;> decide

end Sys2Proof.Laws.EncodesInFormatC
end

