-- ==== Sys2Proof/Laws/Step.lean ====
section
/-! SUPPORT. What a step can do, said once, and the step on presented ports. -/

namespace Sys2Proof.Machine

theorem step_of_rst {s : State} (h : s.ports.rst = true) : step s = .next (nextInputs (applyReset s)) := by
  simp [step, h]

theorem step_of_command {s : State} {i : Instr} (h : s.ports.rst = false) (hr : s.rstSeen = true)
    (hd : decode s.ports.cmd = .ok i) : step s = thenNextInputs (exec i s) := by
  simp [step, h, hr, fetch, hd]

/-- If a step answers a next state, it was a reset step, or it ran the command on CMD after a reset had been seen. -/
theorem step_next_cases {s t : State} (h : step s = .next t) :
    (s.ports.rst = true ∧ t = nextInputs (applyReset s)) ∨
    (s.ports.rst = false ∧ s.rstSeen = true ∧ ∃ i u, decode s.ports.cmd = .ok i ∧ exec i s = .next u ∧
      t = nextInputs u) := by
  cases hr : s.ports.rst with
  | true => exact .inl ⟨rfl, by rw [step_of_rst hr] at h; simpa using h.symm⟩
  | false =>
    cases hs : s.rstSeen with
    | false => simp [step, hr, hs] at h
    | true =>
      cases hd : decode s.ports.cmd with
      | error e => simp [step, hr, hs, fetch, hd] at h
      | ok i =>
        rw [step_of_command hr hs hd] at h
        cases he : exec i s with
        | next u => rw [he] at h; exact .inr ⟨rfl, rfl, i, u, rfl, he, by simpa using h.symm⟩
        | fault f => cases f
        | refused r => rw [he] at h; cases h

/-- The word of a command that decodes (R72). -/
theorem decode_word {w : CmdWord} {i : Instr} (h : decode w = .ok i) :
    (i = .nop ∧ w = 0x00) ∨ (i = .measure ∧ w = 0x10) ∨ (i = .abort ∧ w = 0x20) ∨ (i = .sgReset ∧ w = 0x30) ∨
    (i = .sgAdvance ∧ w = 0x40) ∨ (i = .sgForce false ∧ w = 0x50) ∨ (i = .sgForce true ∧ w = 0x51) := by
  obtain rfl := encode_of_decode h
  cases i with
  | sgForce b => cases b <;> decide
  | _ => decide

/-- lc = 1 is CLK_IN differing from CLK_POL. -/
theorem logicalClock_iff (p : Ports) (r : Regs) : logicalClock p r = true ↔ p.clk ≠ r.clkPol := by
  unfold logicalClock; cases p.clk <;> cases r.clkPol <;> decide

/-- lc = 0 is CLK_IN equal to CLK_POL. -/
theorem logicalClock_false_iff (p : Ports) (r : Regs) : logicalClock p r = false ↔ p.clk = r.clkPol := by
  unfold logicalClock; cases p.clk <;> cases r.clkPol <;> decide

theorem sampledBit_eq (p : Ports) (r : Regs) : sampledBit p r = (p.data != r.dataPol) := by
  unfold sampledBit logicalData; cases p.data <;> cases r.dataPol <;> rfl

/-- Everything a step that answers a next state can have done to the registers: one constructor for each case of R160, with the
condition under which it is taken and the registers it leaves. -/
inductive StepEffect (s : State) (t : Regs) : Prop where
  | reset (hr : s.ports.rst = true) (ht : t = Regs.reset)
  | idlePoll (hr : s.ports.rst = false) (hc : s.ports.cmd = 0x00) (hp : s.regs.phase = .idle) (ht : t = s.regs)
  | riseHold (hr : s.ports.rst = false) (hc : s.ports.cmd = 0x00)
      (hp : s.regs.phase = .syncWaitRise ∨ s.regs.phase = .countWaitRise) (hl : s.ports.clk = s.regs.clkPol)
      (ht : t = s.regs)
  | fallHold (hr : s.ports.rst = false) (hc : s.ports.cmd = 0x00)
      (hp : s.regs.phase = .syncWaitFall ∨ s.regs.phase = .countWaitFall) (hl : s.ports.clk ≠ s.regs.clkPol)
      (ht : t = s.regs)
  | syncBit (hr : s.ports.rst = false) (hc : s.ports.cmd = 0x00) (hp : s.regs.phase = .syncWaitRise)
      (hl : s.ports.clk ≠ s.regs.clkPol) (ht : t = Machine.syncBit (s.ports.data != s.regs.dataPol) s.regs)
  | syncFall (hr : s.ports.rst = false) (hc : s.ports.cmd = 0x00) (hp : s.regs.phase = .syncWaitFall)
      (hl : s.ports.clk = s.regs.clkPol) (ht : t = Machine.syncFall s.regs)
  | countBit (hr : s.ports.rst = false) (hc : s.ports.cmd = 0x00) (hp : s.regs.phase = .countWaitRise)
      (hl : s.ports.clk ≠ s.regs.clkPol) (ht : t = Machine.countBit (s.ports.data != s.regs.dataPol) s.regs)
  | countFall (hr : s.ports.rst = false) (hc : s.ports.cmd = 0x00) (hp : s.regs.phase = .countWaitFall)
      (hl : s.ports.clk = s.regs.clkPol) (ht : t = Machine.countFall s.regs)
  | abortBusy (hr : s.ports.rst = false) (hc : s.ports.cmd = 0x20) (hp : s.regs.phase ≠ .idle)
      (ht : t = endMeasurement .aborted s.regs)
  | abortIdle (hr : s.ports.rst = false) (hc : s.ports.cmd = 0x20) (hp : s.regs.phase = .idle) (ht : t = s.regs)
  | measure (hr : s.ports.rst = false) (hc : s.ports.cmd = 0x10) (hp : s.regs.phase = .idle)
      (hi : s.ports.cfgLenIdx.toNat ≤ 5) (hth : s.ports.cfgThresh ≠ 0) (ht : t = startMeasurement s.ports s.regs)
  | invalidIndex (hr : s.ports.rst = false) (hc : s.ports.cmd = 0x10) (hp : s.regs.phase = .idle)
      (hi : 5 < s.ports.cfgLenIdx.toNat) (ht : t = s.regs.setResult .invalidLenIdx)
  | invalidThreshold (hr : s.ports.rst = false) (hc : s.ports.cmd = 0x10) (hp : s.regs.phase = .idle)
      (hi : s.ports.cfgLenIdx.toNat ≤ 5) (hth : s.ports.cfgThresh = 0) (ht : t = s.regs.setResult .invalidThresh)
  | sgReset (hr : s.ports.rst = false) (hc : s.ports.cmd = 0x30) (hp : s.regs.phase = .idle)
      (ht : t = s.regs.setLfsr 0xFFFF)
  | sgAdvance (hr : s.ports.rst = false) (hc : s.ports.cmd = 0x40) (hp : s.regs.phase = .idle)
      (ht : t = s.regs.setLfsr (advance s.regs.lfsr))
  | sgForce (b : Bool) (hr : s.ports.rst = false) (hc : s.ports.cmd = if b then 0x51 else 0x50)
      (hp : s.regs.phase = .idle) (ht : t = s.regs.setLfsr (forceOverride b s.regs.lfsr))

/-- The poll step's cases of `StepEffect`. -/
theorem stepEffect_poll {s : State} (hr : s.ports.rst = false) (hc : s.ports.cmd = 0x00) :
    StepEffect s (poll s.ports s.regs) := by
  cases hp : s.regs.phase <;> cases hl : logicalClock s.ports s.regs
  case idle.false => exact .idlePoll hr hc hp (poll_idle hp)
  case idle.true => exact .idlePoll hr hc hp (poll_idle hp)
  case syncWaitRise.false =>
    exact .riseHold hr hc (.inl hp) ((logicalClock_false_iff _ _).1 hl) (poll_rise_hold (.inl hp) hl)
  case syncWaitRise.true =>
    exact .syncBit hr hc hp ((logicalClock_iff _ _).1 hl) (by rw [poll_syncBit hp hl, sampledBit_eq])
  case syncWaitFall.false => exact .syncFall hr hc hp ((logicalClock_false_iff _ _).1 hl) (poll_syncFall hp hl)
  case syncWaitFall.true =>
    exact .fallHold hr hc (.inl hp) ((logicalClock_iff _ _).1 hl) (poll_fall_hold (.inl hp) hl)
  case countWaitRise.false =>
    exact .riseHold hr hc (.inr hp) ((logicalClock_false_iff _ _).1 hl) (poll_rise_hold (.inr hp) hl)
  case countWaitRise.true =>
    exact .countBit hr hc hp ((logicalClock_iff _ _).1 hl) (by rw [poll_countBit hp hl, sampledBit_eq])
  case countWaitFall.false => exact .countFall hr hc hp ((logicalClock_false_iff _ _).1 hl) (poll_countFall hp hl)
  case countWaitFall.true =>
    exact .fallHold hr hc (.inr hp) ((logicalClock_iff _ _).1 hl) (poll_fall_hold (.inr hp) hl)

/-- What an accepted MEASURE does: it starts, or rejects one of the two invalid configurations. -/
theorem stepEffect_measure {s : State} (hr : s.ports.rst = false) (hc : s.ports.cmd = 0x10)
    (hp : s.regs.phase = .idle) : StepEffect s
      (if lenIdxInvalid s.ports || threshInvalid s.ports then invalidConfiguration s.ports s.regs
        else startMeasurement s.ports s.regs) := by
  by_cases hl : lenIdxInvalid s.ports = true
  · exact .invalidIndex hr hc hp ((lenIdxInvalid_iff _).1 hl) (by simp [hl, invalidConfiguration])
  · have hi : s.ports.cfgLenIdx.toNat ≤ 5 := by rw [lenIdxInvalid_iff] at hl; omega
    by_cases hth : threshInvalid s.ports = true
    · exact .invalidThreshold hr hc hp hi ((threshInvalid_iff _).1 hth) (by simp [hl, hth, invalidConfiguration])
    · exact .measure hr hc hp hi (fun h => hth ((threshInvalid_iff _).2 h)) (by simp [hl, hth])

/-- If a step answers a next state, its effect on the registers is one of the cases of `StepEffect`, and a reset has been seen
from then on. -/
theorem step_effect {s t : State} (h : step s = .next t) : StepEffect s t.regs ∧ t.rstSeen = true := by
  rcases step_next_cases h with ⟨hr, rfl⟩ | ⟨hr, hs, i, u, hd, he, rfl⟩
  · exact ⟨.reset hr (by simp), by simp⟩
  · have hu := exec_next he
    refine ⟨?_, by rw [nextInputs_rstSeen, hu]; exact hs⟩
    rw [nextInputs_regs]
    rcases decode_word hd with ⟨rfl, hw⟩ | ⟨rfl, hw⟩ | ⟨rfl, hw⟩ | ⟨rfl, hw⟩ | ⟨rfl, hw⟩ | ⟨rfl, hw⟩ | ⟨rfl, hw⟩
    · rw [exec_nop] at he; cases he; exact stepEffect_poll hr hw
    · rw [exec_measure] at he; obtain ⟨hp, rfl⟩ := whenIdle_next he; exact stepEffect_measure hr hw hp
    · rw [exec_abort] at he; cases he
      by_cases hp : s.regs.phase = .idle
      · exact .abortIdle hr hw hp (by simp [busy, hp])
      · exact .abortBusy hr hw hp (by simp [busy, hp])
    · rw [exec_sgReset] at he; obtain ⟨hp, rfl⟩ := whenIdle_next he; exact .sgReset hr hw hp rfl
    · rw [exec_sgAdvance] at he; obtain ⟨hp, rfl⟩ := whenIdle_next he; exact .sgAdvance hr hw hp rfl
    · rw [exec_sgForce] at he; obtain ⟨hp, rfl⟩ := whenIdle_next he; exact .sgForce false hr hw hp rfl
    · rw [exec_sgForce] at he; obtain ⟨hp, rfl⟩ := whenIdle_next he; exact .sgForce true hr hw hp rfl

/-- A poll step on presented ports: after a reset it always answers, with the poll's registers. -/
theorem stepOn_poll {p : Ports} {s : State} (hr : s.rstSeen = true) (h0 : p.rst = false) (hc : p.cmd = 0x00) :
    stepOn p s = .next (nextInputs (s.setPorts p |>.setRegs (poll p s.regs))) := by
  have hd : decode (s.setPorts p).ports.cmd = .ok .nop := by rw [State.setPorts_ports, hc]; decide
  rw [stepOn, step_of_command (s := s.setPorts p) (i := .nop) h0 hr hd]
  rfl

theorem runOn_nil (s : State) : runOn [] s = .next s := rfl

theorem runOn_cons_next {p : Ports} {ps : List Ports} {s s' : State} (h : stepOn p s = .next s') :
    runOn (p :: ps) s = runOn ps s' := by simp [runOn, h]

/-- A run over two lists is the run over the second from where the first one ends. -/
theorem runOn_append {ps qs : List Ports} {s s' : State} (h : runOn ps s = .next s') :
    runOn (ps ++ qs) s = runOn qs s' := by
  induction ps generalizing s with
  | nil => cases h; rfl
  | cons p ps ih =>
    simp only [runOn] at h
    cases hs : stepOn p s with
    | next u => rw [hs] at h; rw [List.cons_append, runOn_cons_next hs, ih h]
    | fault f => cases f
    | refused r => rw [hs] at h; cases h

/-- What is proved of one step holds along every run: an induction done once. -/
theorem runOn_induction {P : State → Prop} (hstep : ∀ p s t, P s → stepOn p s = .next t → P t) {ps : List Ports}
    {s t : State} (h0 : P s) (h : runOn ps s = .next t) : P t := by
  induction ps generalizing s with
  | nil => cases h; exact h0
  | cons p ps ih =>
    simp only [runOn] at h
    cases hs : stepOn p s with
    | next u => rw [hs] at h; exact ih (hstep p s u h0 hs) h
    | fault f => cases f
    | refused r => rw [hs] at h; cases h

end Sys2Proof.Machine
end

