-- ==== Sys2Proof/Laws/Run.lean ====
section
/-! SUPPORT. What one cycle of the logical clock does in a rise wait: a sync bit and its fall, or a counted bit and its fall
(R123 to R126). The claims about runs are inductions over these. -/

namespace Sys2Proof.Machine

section
variable {s : State} {held : Ports} {cp : Bool}

/-- One poll step, as far as the registers and the reset mark go. -/
theorem stepOn_pollPorts (hr : s.rstSeen = true) (clk data : Bool) : ∃ t, stepOn (pollPorts held clk data) s = .next t ∧
    t.rstSeen = true ∧ t.regs = poll (pollPorts held clk data) s.regs :=
  ⟨_, stepOn_poll hr rfl rfl, by simpa using hr, by simp⟩

/-- Poll steps none of which changes the registers change nothing together. -/
theorem runOn_hold (hr : s.rstSeen = true) (clk : Bool) (ds : List Bool)
    (hold : ∀ d, poll (pollPorts held clk d) s.regs = s.regs) :
    ∃ t, runOn (ds.map (pollPorts held clk)) s = .next t ∧ t.rstSeen = true ∧ t.regs = s.regs := by
  induction ds generalizing s with
  | nil => exact ⟨s, rfl, hr, rfl⟩
  | cons d ds ih =>
    obtain ⟨u, hu, hur, hue⟩ := stepOn_pollPorts (held := held) hr clk d
    rw [hold d] at hue
    obtain ⟨t, ht, htr, hte⟩ := ih hur (fun d => by rw [hue]; exact hold d)
    exact ⟨t, by rw [List.map_cons, runOn_cons_next hu, ht], htr, by rw [hte, hue]⟩

/-- lc = 1 in the high steps of a cycle, lc = 0 in the low ones. -/
theorem logicalClock_high {r : Regs} (h : r.clkPol = cp) (d : Bool) :
    logicalClock (pollPorts held (!cp) d) r = true := by
  rw [logicalClock_iff]; subst h; simp [pollPorts]

theorem logicalClock_low {r : Regs} (h : r.clkPol = cp) (d : Bool) :
    logicalClock (pollPorts held cp d) r = false := by
  rw [logicalClock_false_iff]; subst h; simp [pollPorts]

/-- Steps with lc = 0 in a rise wait change nothing (R123). -/
theorem runOn_low (hr : s.rstSeen = true) (hp : s.regs.phase = .syncWaitRise ∨ s.regs.phase = .countWaitRise)
    (hcp : s.regs.clkPol = cp) (low : List Bool) :
    ∃ t, runOn (low.map (pollPorts held cp)) s = .next t ∧ t.rstSeen = true ∧ t.regs = s.regs :=
  runOn_hold hr cp low fun d => poll_rise_hold hp (logicalClock_low hcp d)

/-- A cycle whose first high step takes the registers to a fall wait, and whose first low step takes them on to where
lc = 0 holds them. -/
theorem runOn_cycle (b : PolledBit) (hr : s.rstSeen = true) {high low : Regs}
    (hhigh : poll (pollPorts held (!cp) b.bit) s.regs = high)
    (hholdHigh : ∀ d, poll (pollPorts held (!cp) d) high = high)
    (hlow : poll (pollPorts held cp b.low) high = low)
    (hholdLow : ∀ d, poll (pollPorts held cp d) low = low) :
    ∃ t, runOn (b.steps held cp) s = .next t ∧ t.rstSeen = true ∧ t.regs = low := by
  obtain ⟨u, hu, hur, hue⟩ := stepOn_pollPorts (held := held) hr (!cp) b.bit
  rw [hhigh] at hue
  obtain ⟨v, hv, hvr, hve⟩ := runOn_hold (held := held) hur (!cp) b.moreHigh (by rw [hue]; exact hholdHigh)
  rw [hue] at hve
  obtain ⟨w, hw, hwr, hwe⟩ := stepOn_pollPorts (held := held) hvr cp b.low
  rw [hve, hlow] at hwe
  obtain ⟨t, ht, htr, hte⟩ := runOn_hold (held := held) hwr cp b.moreLow (by rw [hwe]; exact hholdLow)
  refine ⟨t, ?_, htr, by rw [hte, hwe]⟩
  rw [PolledBit.steps, List.map_cons, List.cons_append, runOn_cons_next hu, runOn_append hv, List.map_cons,
    runOn_cons_next hw, ht]

/-- One cycle in SYNC_WAIT_RISE: a SYNC-BIT on its bit, then a SYNC-FALL. -/
theorem runOn_syncCycle (b : PolledBit) (hr : s.rstSeen = true) (hp : s.regs.phase = .syncWaitRise)
    (hcp : s.regs.clkPol = cp) : ∃ t, runOn (b.steps held cp) s = .next t ∧ t.rstSeen = true ∧
      t.regs = syncFall (syncBit (b.bit != s.regs.dataPol) s.regs) := by
  refine runOn_cycle b hr (high := syncBit (b.bit != s.regs.dataPol) s.regs) ?_ ?_ ?_ ?_
  · rw [poll_syncBit hp (logicalClock_high hcp _), sampledBit_eq]; rfl
  · exact fun d => poll_fall_hold (.inl (syncBit_phase _ _)) (logicalClock_high (by simpa using hcp) d)
  · exact poll_syncFall (syncBit_phase _ _) (logicalClock_low (by simpa using hcp) _)
  · refine fun d => poll_rise_hold ?_ (logicalClock_low (by simpa using hcp) d)
    rw [syncFall_phase]; split <;> simp

/-- One cycle in COUNT_WAIT_RISE: a COUNT-BIT on its bit, then a COUNT-FALL. -/
theorem runOn_countCycle (b : PolledBit) (hr : s.rstSeen = true) (hp : s.regs.phase = .countWaitRise)
    (hcp : s.regs.clkPol = cp) : ∃ t, runOn (b.steps held cp) s = .next t ∧ t.rstSeen = true ∧
      t.regs = countFall (countBit (b.bit != s.regs.dataPol) s.regs) := by
  refine runOn_cycle b hr (high := countBit (b.bit != s.regs.dataPol) s.regs) ?_ ?_ ?_ ?_
  · rw [poll_countBit hp (logicalClock_high hcp _), sampledBit_eq]; rfl
  · exact fun d => poll_fall_hold (.inr (countBit_phase _ _)) (logicalClock_high (by simpa using hcp) d)
  · exact poll_countFall (countBit_phase _ _) (logicalClock_low (by simpa using hcp) _)
  · intro d
    by_cases h : (countBit (b.bit != s.regs.dataPol) s.regs).countBits = total (countBit (b.bit != s.regs.dataPol) s.regs)
    · exact poll_idle (by rw [countFall_phase, if_pos h])
    · exact poll_rise_hold (.inr (by rw [countFall_phase, if_neg h])) (logicalClock_low (by simpa using hcp) d)

/-- A valid MEASURE in IDLE on presented ports starts a measurement. -/
theorem stepOn_measure {m : Ports} (hr : s.rstSeen = true) (hp : s.regs.phase = .idle) (h0 : m.rst = false)
    (hc : m.cmd = 0x10) (hi : m.cfgLenIdx.toNat ≤ 5) (hth : m.cfgThresh ≠ 0) :
    ∃ t, stepOn m s = .next t ∧ t.rstSeen = true ∧ t.regs = startMeasurement m s.regs := by
  have hd : decode (s.setPorts m).ports.cmd = .ok .measure := by rw [State.setPorts_ports, hc]; decide
  have h1 : ¬ lenIdxInvalid m = true := by rw [lenIdxInvalid_iff]; omega
  have h2 : ¬ threshInvalid m = true := by rwa [threshInvalid_iff]
  refine ⟨nextInputs ((s.setPorts m).setRegs (startMeasurement m s.regs)), ?_, ?_, ?_⟩
  · rw [stepOn, step_of_command (s := s.setPorts m) h0 hr hd, exec_measure,
      whenIdle_idle (s := s.setPorts m) hp]
    simp [h1, h2]
  · simpa using hr
  · simp

/-- The steps after a MEASURE begin where the clock cycles begin: the steps with lc = 0 before them do nothing. -/
theorem runOn_streamSteps (hr : s.rstSeen = true) (hp : s.regs.phase = .syncWaitRise ∨ s.regs.phase = .countWaitRise)
    (hcp : s.regs.clkPol = cp) (low : List Bool) :
    ∃ t, t.rstSeen = true ∧ t.regs = s.regs ∧
      ∀ bs, runOn (streamSteps held cp low bs) s = runOn (polledSteps held cp bs) t := by
  obtain ⟨t, ht, htr, hte⟩ := runOn_low (held := held) hr hp hcp low
  exact ⟨t, htr, hte, fun bs => by rw [streamSteps, runOn_append ht]⟩

end

end Sys2Proof.Machine
end

