-- ==== Sys2Proof/Tests/Slice0.lean ====
section
/-! SUPPORT. The model's own tests. Expected values are those of 95_test_vectors.md (the vector is named at each test) or the
spec's own encodings. After the tests, one witness for each statement that has hypotheses: a concrete state that meets them. -/

namespace Sys2Proof.Tests

open Sys2Proof Sys2Proof.Machine

/-! ### Helpers -/

/-- A state after a reset with the given registers and ports. -/
def stateWith (r : Regs) (p : Ports) : State := { regs := r, rstSeen := true, ports := p, script := [], draws := 0 }

/-- Ports that present a command, the two lines at 0. -/
def presenting (w : CmdWord) : Ports := { Ports.quiet with cmd := w }

/-- Poll ports: NOP and the two levels. -/
def polling (clk data : Bool) : Ports := { Ports.quiet with clk := clk, data := data }

/-- Ports that present MEASURE with a configuration. -/
def measuring (cp dp : Bool) (idx : LenIdx) (th : Thresh) : Ports :=
  { Ports.quiet with cmd := 0x10, cfgClkPol := cp, cfgDataPol := dp, cfgLenIdx := idx, cfgThresh := th }

/-- The registers a step leaves, if it leaves a state. -/
def regsAfter : Host.Outcome State Fault Refusal → Option Regs
  | .next s => some s.regs
  | .fault _ => none
  | .refused _ => none

/-- The reason a step is refused, if it is. -/
def refusalOf : Host.Outcome State Fault Refusal → Option Refusal
  | .next _ => none
  | .fault _ => none
  | .refused r => some r

/-- A step on registers and ports. -/
def stepRegs (r : Regs) (p : Ports) : Option Regs := regsAfter (step (stateWith r p))

/-- Registers in a running sync phase with THRESH = 4 (V-SY1). -/
def syncing (l : Lfsr) (n : Count) (ph : Phase) : Regs :=
  { Regs.reset with lfsr := l, matchCnt := n, phase := ph, thresh := 4 }

/-- Registers in a running count phase with THRESH = 8 and 1000 bits (V-MC8). -/
def counting (l : Lfsr) (n : Count) (ph : Phase) : Regs :=
  { Regs.reset with lfsr := l, matchCnt := 8, countBits := n, phase := ph, lock := true, thresh := 8 }

/-- Registers after P2: a completed measurement. -/
def completed : Regs :=
  { Regs.reset with lfsr := 0x0FFF, matchCnt := 8, countBits := 1000, lock := true, result := .complete, thresh := 8 }

/-! ### Parameters: R9's rows agree with each other -/

theorem test_params : Param.lenTable.length = Param.lenCount ∧ Param.seed = BitVec.allOnes Param.nCells ∧
    Param.outCell + 1 = Param.nCells := by decide

/-! ### WellFormed: an ill-formed term for each check, which the check refuses -/

theorem test_wf_undefined_op : (CommandFields.mk 0x6 0 false).wf = false := by decide
theorem test_wf_reserved_bits : (CommandFields.mk 0x5 0b001 false).wf = false := by decide
theorem test_wf_operand_misplaced : (CommandFields.mk 0x1 0 true).wf = false := by decide
theorem test_wf_accepts_force : (CommandFields.mk 0x5 0 true).wf = true := by decide
theorem test_pseudo_wf : (Pseudo.sgAdvance 0).wf = false ∧ (Pseudo.wait 0).wf = false ∧ (Pseudo.wait 1).wf = true := by
  decide

/-! ### Decoding: words written out from R70 and R72, OP then RSV then B -/

theorem test_decode_nop : decode 0b00000000 = .ok .nop := by rfl
theorem test_decode_measure : decode 0b00010000 = .ok .measure := by rfl
theorem test_decode_abort : decode 0b00100000 = .ok .abort := by rfl
theorem test_decode_sgReset : decode 0b00110000 = .ok .sgReset := by rfl
theorem test_decode_sgAdvance : decode 0b01000000 = .ok .sgAdvance := by rfl
theorem test_decode_sgForce : decode 0b01010000 = .ok (.sgForce false) ∧ decode 0b01010001 = .ok (.sgForce true) :=
  ⟨rfl, rfl⟩
/-- V-RF1's illegal words. -/
theorem test_decode_rejects : decode 0x01 = .error .operandNotAllowed ∧ decode 0x11 = .error .operandNotAllowed ∧
    decode 0x52 = .error .reservedBitsSet ∧ decode 0x60 = .error .undefinedOperation ∧
    decode 0xF0 = .error .undefinedOperation ∧ decode 0xFF = .error .reservedBitsSet :=
  ⟨rfl, rfl, rfl, rfl, rfl, rfl⟩
theorem test_encode_words : encode .measure = 0x10 ∧ encode (.sgForce true) = 0x51 := by decide
/-- The host's table words reach the decoder and the next step. -/
theorem test_table_word : decodeTableWord 8 0x40 = some .sgAdvance ∧ decodeTableWord 8 0x41 = none ∧
    (regsAfter (step (State.reset.withFetchWord 8 0x51))) = some Regs.reset := ⟨rfl, rfl, by decide⟩

/-! ### SequenceGenerator -/

/-- V-SG1: the advance of each listed state. -/
theorem test_advance_table : [0x0000, 0x8000, 0xFFFF, 0x7FFF, 0x0880, 0x0080, 0x0800, 0x00F0, 0xFFF8, 0x1234].map advance =
    [0x0000, 0x0000, 0xFFFE, 0xFFFE, 0x1100, 0x0101, 0x1001, 0x01E1, 0xFFF0, 0x2468] := by decide
/-- V-SG1: the overrides of four listed states. -/
theorem test_force_table : [0x0000, 0xFFFF, 0x7FF8, 0x1234].map (forceOverride true) = [0x8000, 0xFFFF, 0xFFF8, 0x9234] ∧
    [0x8000, 0xFFFF, 0x7FF8, 0x1234].map (forceOverride false) = [0x0000, 0x7FFF, 0x7FF8, 0x1234] := by decide
/-- V-SG3, first row. -/
theorem test_sgForce : (stepRegs completed (presenting 0x51)).map (fun r => (r.lfsr, statusView r)) =
    some (0x8FFF, 0x0046) := by decide
/-- V-SG3, second row. -/
theorem test_sgAdvance :
    (stepRegs { completed with lfsr := 0x8FFF } (presenting 0x40)).map (fun r => (r.lfsr, statusView r)) =
    some (0x1FFE, 0x0042) := by decide
/-- V-SG3, third row. -/
theorem test_sgReset :
    (stepRegs { completed with lfsr := 0x1FFE } (presenting 0x30)).map (fun r => (r.lfsr, statusView r)) =
    some (0xFFFF, 0x0046) := by decide

/-! ### NOP: the actions of the poll step -/

/-- V-SY1, bit 4 rise, then V-SY2, bit 3 rise: the lock, and a mismatch. -/
theorem test_nop_sync :
    stepRegs (syncing 0xFFF8 3 .syncWaitRise) (polling true true) =
      some { syncing 0xFFF0 4 .syncWaitFall with lock := true } ∧
    stepRegs (syncing 0xFFFC 2 .syncWaitRise) (polling true false) = some (syncing 0xFFF8 0 .syncWaitFall) := by decide
/-- R164's example, and R165's. -/
theorem test_nop_count :
    stepRegs (counting 0xFF00 5 .countWaitRise) (polling true false) =
      some { counting 0xFE01 6 .countWaitFall with errBits := 1 } ∧
    stepRegs (counting 0x0FFF 1000 .countWaitFall) (polling false true) = some completed := by decide

/-! ### MEASURE and ABORT -/

/-- V-MC7, first and second rows, read at addresses 0 to 7. -/
theorem test_measure_latches :
    (stepRegs Regs.reset (measuring true true 5 1)).map (fun r => (List.range 8).map fun a => regRead (BitVec.ofNat 3 a) r) =
      some [0x000D, 0xFFFF, 0, 0, 0, 0x0017, 0x0001, 0xFFFF] ∧
    (stepRegs Regs.reset (measuring false true 3 65535)).map (fun r => (List.range 8).map fun a => regRead (BitVec.ofNat 3 a) r) =
      some [0x000D, 0xFFFF, 0, 0, 0, 0x000E, 0xFFFF, 0x7530] := by decide
/-- V-MC6: the four invalid configurations. -/
theorem test_measure_invalid :
    [measuring false false 6 8, measuring false false 5 0, measuring false false 7 0, measuring false false 0 0].map
      (fun p => (stepRegs Regs.reset p).map statusView) = [some 0x00C4, some 0x0104, some 0x00C4, some 0x0104] := by decide
/-- V-MC8: STATUS 0x0027 before ABORT and 0x0086 after it, the counters kept. -/
theorem test_abort :
    statusView (counting 0xFFE0 501 .countWaitFall) = 0x0027 ∧
    (stepRegs (counting 0xFFE0 501 .countWaitFall) (presenting 0x20)).map (fun r => (statusView r, r.countBits, r.lfsr)) =
      some (0x0086, 501, 0xFFE0) := by decide

/-! ### Refusals, STATUS and reset -/

/-- V-RF1: a step before the first RST, and commands while busy. -/
theorem test_refusals :
    refusalOf (step (State.powerUp completed (presenting 0x10) [])) = some .beforeReset ∧
    refusalOf (step (stateWith Regs.reset (presenting 0x52))) = some .illegalCommand ∧
    refusalOf (step (stateWith (syncing 0xFFFE 1 .syncWaitFall) (presenting 0x40))) = some .commandWhileBusy ∧
    refusalOf (step (stateWith (counting 0xFFE0 1 .countWaitRise) (presenting 0x21))) = some .illegalCommand := by decide
/-- V-ST1 and V-ST2. -/
theorem test_status_codes :
    [Phase.idle, .syncWaitRise, .syncWaitFall, .countWaitRise, .countWaitFall].map
      (fun ph => statusView { Regs.reset with phase := ph, lock := true }) = [0x0006, 0x000F, 0x0017, 0x001F, 0x0027] ∧
    [Result.none, .complete, .aborted, .invalidLenIdx, .invalidThresh].map
      (fun c => statusView { Regs.reset with lfsr := 0, result := c }) = [0x0000, 0x0040, 0x0080, 0x00C0, 0x0100] := by decide
/-- V-RS1: the eight registers after RST in the middle of a measurement, whatever CMD is. -/
theorem test_reset :
    (stepRegs (counting 0xFFE0 501 .countWaitFall) { presenting 0xFF with rst := true }).map
      (fun r => (List.range 8).map fun a => regRead (BitVec.ofNat 3 a) r) =
      some [0x0004, 0xFFFF, 0, 0, 0, 0, 0, 0x03E8] := by decide

/-! ### Notations and the host's check -/

theorem test_assembly : assembleLine ([' ', 'S', 'G', '.', 'F', 'O', 'R', 'C', 'E', ' ', ' ', '1', ' ', ';', 'x']) =
    some (.sgForce true) ∧ assembleLine ['n', 'o', 'p'] = none ∧ assembleLine [';'] = none := by decide
/-- R79: the two steps of a BITS and of an IBITS character. -/
theorem test_bit_lines :
    (lineSteps Ports.quiet (.bits [true])).map (fun p => (p.clk, p.data)) = [(true, true), (false, true)] ∧
    (lineSteps Ports.quiet (.ibits [true])).map (fun p => (p.clk, p.data)) = [(false, true), (true, true)] := by decide
/-- V-MC9: after RST and after ABORT there is no pair to divide. -/
theorem test_ber : (berOperands completed).toOption = some (0, 1000) ∧ (berOperands Regs.reset).toOption = none ∧
    (berOperands { completed with result := .aborted }).toOption = none := by decide

/-! ### Witnesses: states that meet the statements' hypotheses -/

/-- A sync state that meets the invariant. -/
theorem syncing_inv : StepInv (syncing 0xFFFF 0 .syncWaitRise) where
  lenIdx_le := by decide
  thresh_pos := by decide
  sync_match := by decide
  counters := by decide
  sync_counters := by decide
  count_locked := by decide
  complete_total := by decide
  lfsr_ne_zero := by decide
  match_lt := by decide
  count_lt := by decide
  lfsr_reachable := by decide

/-- A locked sync state before its fall that meets the invariant. -/
theorem handOff_inv : StepInv { syncing 0xFFF0 4 .syncWaitFall with lock := true } where
  lenIdx_le := by decide
  thresh_pos := by decide
  sync_match := by decide
  counters := by decide
  sync_counters := by decide
  count_locked := by decide
  complete_total := by decide
  lfsr_ne_zero := by decide
  match_lt := by decide
  count_lt := by decide
  lfsr_reachable := by decide

/-- A completed measurement that meets the invariant. -/
theorem completed_inv : StepInv completed where
  lenIdx_le := by decide
  thresh_pos := by decide
  sync_match := by decide
  counters := by decide
  sync_counters := by decide
  count_locked := by decide
  complete_total := by decide
  lfsr_ne_zero := by decide
  match_lt := by decide
  count_lt := by decide
  lfsr_reachable := by decide

/-- One match short of the largest threshold. -/
def topSync : Regs := { syncing 0xFFFF 65534 .syncWaitRise with thresh := 65535 }

theorem topSync_inv : StepInv topSync where
  lenIdx_le := by decide
  thresh_pos := by decide
  sync_match := by decide
  counters := by decide
  sync_counters := by decide
  count_locked := by decide
  complete_total := by decide
  lfsr_ne_zero := by decide
  match_lt := by decide
  count_lt := by decide
  lfsr_reachable := by decide

/-- One bit short of the longest measurement, every bit so far an error. -/
def topCount : Regs := { counting 0xFF00 65534 .countWaitRise with lenIdx := 5, errBits := 65534 }

theorem topCount_inv : StepInv topCount where
  lenIdx_le := by decide
  thresh_pos := by decide
  sync_match := by decide
  counters := by decide
  sync_counters := by decide
  count_locked := by decide
  complete_total := by decide
  lfsr_ne_zero := by decide
  match_lt := by decide
  count_lt := by decide
  lfsr_reachable := by decide

theorem witness_IllegalWordsAreRefused : ∃ s : State, s.ports.rst = false ∧ s.rstSeen = true ∧
    ∀ i, decode s.ports.cmd ≠ .ok i :=
  ⟨stateWith Regs.reset (presenting 0x60), rfl, rfl, fun _ h => nomatch (show Except.error _ = Except.ok _ from h)⟩
/-- The first and the last value of each of R74's three clauses. -/
theorem witness_illegalWordClauses : ([0x60, 0xF0, 0x02, 0x5E, 0x01, 0x41] : List CmdWord).all
    (fun w => (decodeTableWord 8 w.toNat).isNone) = true := by decide
theorem witness_CommandLegalityByPhase : (stateWith Regs.reset Ports.quiet).regs.phase = .idle ∧
    (stateWith (syncing 0xFFFF 0 .syncWaitRise) Ports.quiet).regs.phase ≠ .idle ∧
    (stateWith (counting 0xFFFF 0 .countWaitFall) Ports.quiet).regs.phase ≠ .idle := by decide
/-- A script with no READ that runs, and one with a READ after it. -/
theorem witness_PlayingAScriptPresentsItsSteps : ∃ (ls : List HostLine) (t : State), (∀ reg, .read reg ∉ ls) ∧ ls ≠ [] ∧
    runOn (scriptSteps Ports.quiet ls) (State.powerUp completed Ports.quiet []) = .next t ∧
    (playScript Ports.quiet (ls ++ [.read .thresh]) (State.powerUp completed Ports.quiet [])).2 = [12] :=
  ⟨[.rst, .cfg true false 2 12, commandLine .measure, .ibits [true]], _, by simp [commandLine], by decide, rfl, by decide⟩
theorem witness_StepRunsTheDecodedCommand : ∃ s : State, s.ports.rst = false ∧ s.rstSeen = true ∧
    decode s.ports.cmd = .ok (.sgForce true) := ⟨stateWith Regs.reset (presenting 0x51), rfl, rfl, rfl⟩
theorem witness_StepRunsTheDecodedCommand_script : ∃ (s : State) (p : Ports) (t : State), s.ports.rst = false ∧
    s.rstSeen = true ∧ decode s.ports.cmd = .ok .abort ∧ exec .abort s = .next t ∧ s.script = [p] :=
  ⟨{ stateWith Regs.reset (presenting 0x20) with script := [Ports.quiet] }, Ports.quiet, _, rfl, rfl, rfl, rfl, rfl⟩
theorem witness_StepTransitionTable : ∃ s u v : State,
    s.ports.rst = true ∧ (u.ports.rst = false ∧ u.rstSeen = false) ∧
    (v.ports.rst = false ∧ v.rstSeen = true ∧ v.ports.cmd = 0x00 ∧ v.regs.phase = .countWaitRise ∧
      v.ports.clk ≠ v.regs.clkPol) :=
  ⟨stateWith Regs.reset { Ports.quiet with rst := true }, State.powerUp completed Ports.quiet [],
    stateWith (counting 0xFF00 5 .countWaitRise) (polling true true), by decide⟩
theorem witness_StepTransitionTable_busy : ∃ s : State, s.ports.rst = false ∧ s.rstSeen = true ∧
    s.regs.phase ≠ .idle ∧ s.ports.cmd ∈ ([0x10, 0x30, 0x40, 0x50, 0x51] : List CmdWord) :=
  ⟨stateWith (syncing 0xFFFF 0 .syncWaitRise) (presenting 0x51), by decide⟩
theorem witness_ResetWritesEveryRegister : ∃ s : State, s.ports.rst = true ∧ s.rstSeen = false :=
  ⟨State.powerUp completed { presenting 0xFF with rst := true } [], by decide⟩
theorem witness_NoStepBeforeTheFirstReset : ∃ s : State, s.rstSeen = false ∧ s.ports.rst = false :=
  ⟨State.powerUp completed Ports.quiet [], by decide⟩
theorem witness_FeedbackReadsCells7And11 : ∃ l m : Lfsr, l ≠ m ∧ l.getLsbD 7 = m.getLsbD 7 ∧
    l.getLsbD 11 = m.getLsbD 11 := ⟨0x0880, 0xF880, by decide⟩
theorem witness_SgResetReseedsTheLfsr : (stateWith Regs.reset Ports.quiet).regs.lfsr = 0xFFFF ∧
    (stateWith completed Ports.quiet).regs.phase = .idle ∧ (stateWith (syncing 0 0 .syncWaitFall) Ports.quiet).regs.phase ≠ .idle := by
  decide
theorem witness_SgAdvanceShiftsTheLfsrOnce : ∃ s : State, s.regs.phase = .idle ∧ s.regs.lfsr = 0xFF00 :=
  ⟨stateWith { Regs.reset with lfsr := 0xFF00 } Ports.quiet, by decide⟩
theorem witness_SgForceWritesCell15 : ∃ s : State, s.regs.phase = .idle ∧ s.regs.lfsr.getLsbD 15 = false :=
  ⟨stateWith completed Ports.quiet, by decide⟩
theorem witness_ForcedCellNeverFeedsBack : (∀ i, i < 15 → (0xFFF8 : Lfsr).getLsbD i = (0x7FF8 : Lfsr).getLsbD i) ∧
    (0xFFF8 : Lfsr) ≠ 0x7FF8 := by decide
theorem witness_LfsrStaysAmongThe62Values : ∃ (p : Ports) (s t : State), p.rst = true ∧ runOn [p] s = .next t :=
  ⟨{ Ports.quiet with rst := true }, State.powerUp completed Ports.quiet [], _, rfl, rfl⟩
theorem witness_WaitsAreLevelTests : PollStep (stateWith (syncing 0xFFFF 0 .syncWaitRise) (polling true true)) ∧
    PollStep (stateWith (counting 0xFFFF 1 .countWaitFall) (polling false true)) := by
  unfold PollStep; decide
theorem witness_WaitsHoldWithoutBound : ∃ (ps : List Ports) (s : State), s.rstSeen = true ∧ ps ≠ [] ∧
    (∀ p ∈ ps, p.rst = false ∧ p.cmd = 0x00) ∧ s.regs.phase = .countWaitFall ∧ (∀ p ∈ ps, p.clk ≠ s.regs.clkPol) :=
  ⟨[polling true false, polling true true], stateWith (counting 0xFFFF 1000 .countWaitFall) Ports.quiet, by decide⟩
theorem witness_WaitsHoldWithoutBound_ends : ∃ (p : Ports) (s t : State), s.rstSeen = true ∧
    s.regs.phase = .syncWaitRise ∧ p.clk = s.regs.clkPol ∧ stepOn p s = .next t ∧ t.regs ≠ s.regs :=
  ⟨presenting 0x20, stateWith (syncing 0xFFFF 0 .syncWaitRise) Ports.quiet, _, rfl, rfl, rfl, rfl, by decide⟩
theorem witness_OneSampleForEachRunOfOnes : ∃ (ps : List Ports) (s t : State), s.rstSeen = true ∧
    (∀ p ∈ ps, p.rst = false ∧ p.cmd = 0x00) ∧ runOn ps s = .next t ∧ t.regs.phase ≠ .idle :=
  ⟨[polling true true], stateWith (syncing 0xFFFF 0 .syncWaitRise) Ports.quiet, _, rfl, by decide, rfl, by decide⟩
theorem witness_PolarityIsARelabelling : ∀ p ∈ [measuring false true 0 8, polling true false], p.rst = false := by decide
theorem witness_CommandStepsIgnoreTheLines : ∃ s : State, s.ports.cmd ≠ 0x00 ∧ s.regs.phase ≠ .idle :=
  ⟨stateWith (syncing 0xFFFF 0 .syncWaitRise) (presenting 0x20), by decide⟩
theorem witness_SyncBitAction : ∃ s : State, s.regs.phase = .syncWaitRise ∧ s.ports.clk ≠ s.regs.clkPol :=
  ⟨stateWith (syncing 0xFFF8 3 .syncWaitRise) (polling true true), by decide⟩
theorem witness_SyncBitAction_invariant : ∃ s : State, s.regs.phase = .syncWaitRise ∧ s.ports.clk ≠ s.regs.clkPol ∧
    (s.ports.data != s.regs.dataPol) ≠ s.regs.lfsr.getLsbD 15 ∧ StepInv s.regs :=
  ⟨stateWith (syncing 0xFFFF 0 .syncWaitRise) (polling true false), rfl, by decide, by decide, syncing_inv⟩
theorem witness_LockChangesOnlyAtItsTransitions : ∃ s t : State, step s = .next t ∧ s.regs.lock = false ∧
    t.regs.lock = true := ⟨stateWith (syncing 0xFFF8 3 .syncWaitRise) (polling true true), _, rfl, by decide, by decide⟩
theorem witness_LockChangesOnlyAtItsTransitions_clear : ∃ s t : State, step s = .next t ∧ s.regs.lock = true ∧
    t.regs.lock = false := ⟨stateWith completed (measuring false false 5 1), _, rfl, by decide, by decide⟩
theorem witness_SyncFallAction : ∃ s : State, s.regs.phase = .syncWaitFall ∧ s.ports.clk = s.regs.clkPol ∧
    s.regs.lock = true ∧ StepInv s.regs :=
  ⟨stateWith { syncing 0xFFF0 4 .syncWaitFall with lock := true } (polling false true), rfl, rfl, rfl, handOff_inv⟩
theorem witness_SyncOverrideIsUnobservable : ∃ s : State, s.regs.phase = .syncWaitRise ∧
    s.ports.clk ≠ s.regs.clkPol ∧ (s.ports.data != s.regs.dataPol) ≠ s.regs.lfsr.getLsbD 15 :=
  ⟨stateWith (syncing 0xFFFC 2 .syncWaitRise) (polling true false), by decide⟩
theorem witness_SyncOverrideIsUnobservable_run : ∃ (m : Ports) (bs : List PolledBit), ValidMeasure m ∧ bs ≠ [] ∧
    ∀ n, n < bs.length → consecutiveMatches (sampledAt m.cfgDataPol bs) n ≠ m.cfgThresh.toNat :=
  ⟨measuring false true 0 8, [idealBit true, idealBit false], by unfold ValidMeasure; decide, by decide, by decide⟩
theorem witness_MatchingStreamLocksAtTheThreshold : ∃ (m : Ports) (bs : List PolledBit) (last : PolledBit),
    ValidMeasure m ∧ bs.length + 1 = m.cfgThresh.toNat ∧
    ∀ k, k ≤ bs.length → sampledAt m.cfgDataPol (bs ++ [last]) k = seqBit k :=
  ⟨measuring true false 5 2, [idealBit true], idealBit true, by unfold ValidMeasure; decide, by decide, by decide⟩
theorem witness_InvertedStreamNeverLocks : ∃ (m : Ports) (bs : List PolledBit), ValidMeasure m ∧ bs ≠ [] ∧
    ∀ k, k < bs.length → sampledAt m.cfgDataPol bs k ≠ seqBit k :=
  ⟨measuring false false 0 1, [idealBit false, idealBit false], by unfold ValidMeasure; decide, by decide, by decide⟩
theorem witness_OffsetSequencesAgreeOnAtMost15Bits : ∃ d n : Nat, d % 28 ≠ 0 ∧ 16 ≤ n := ⟨1, 16, by decide⟩
theorem witness_WrongOffsetNeverLocksFromThreshold16 : ∃ (m : Ports) (bs : List PolledBit) (d : Nat), ValidMeasure m ∧
    16 ≤ m.cfgThresh.toNat ∧ d % 28 ≠ 0 ∧ bs ≠ [] ∧ ∀ k, k < bs.length → sampledAt m.cfgDataPol bs k = seqBit (k + d) :=
  ⟨measuring false false 0 16, [idealBit true, idealBit true], 1, by unfold ValidMeasure; decide, by decide, by decide,
    by decide, by decide⟩
theorem witness_NopChangesNothingInIdle : (stateWith completed (polling true true)).regs.phase = .idle := by decide
theorem witness_MeasureStartsOrRejects : ∃ s u v : State,
    (s.regs.phase = .idle ∧ s.ports.cfgLenIdx.toNat = 5 ∧ s.ports.cfgThresh = 1) ∧
    (u.regs.phase = .idle ∧ u.ports.cfgLenIdx.toNat = 6 ∧ u.ports.cfgThresh = 0) ∧
    (v.regs.phase = .idle ∧ v.ports.cfgLenIdx.toNat = 5 ∧ v.ports.cfgThresh = 0) :=
  ⟨stateWith Regs.reset (measuring true true 5 1), stateWith Regs.reset (measuring true true 6 0),
    stateWith Regs.reset (measuring true true 5 0), by decide⟩
theorem witness_CountBitAction : ∃ s : State, s.regs.phase = .countWaitRise ∧ s.ports.clk ≠ s.regs.clkPol :=
  ⟨stateWith (counting 0xFF00 999 .countWaitRise) (polling true false), by decide⟩
theorem witness_CountFallAction : ∃ s u : State,
    (s.regs.phase = .countWaitFall ∧ s.ports.clk = s.regs.clkPol ∧ s.regs.countBits = total s.regs) ∧
    (u.regs.phase = .countWaitFall ∧ u.ports.clk = u.regs.clkPol ∧ u.regs.countBits ≠ total u.regs) :=
  ⟨stateWith (counting 0xFF00 1000 .countWaitFall) (polling false false),
    stateWith (counting 0xFF00 999 .countWaitFall) (polling false false), by decide⟩
theorem witness_TotalIsTheTableEntry : ({ Regs.reset with lenIdx := 5 }).lenIdx.toNat ≤ 5 := by decide
theorem witness_AbortEndsTheMeasurement : (stateWith (counting 0 0 .countWaitFall) Ports.quiet).regs.phase ≠ .idle ∧
    (stateWith completed Ports.quiet).regs.phase = .idle := by decide
theorem matching_locks (n : Nat) : LocksAfter (sampledAt false ((List.replicate (n + 1) true).map idealBit)) 1 1 := by
  refine ⟨?_, fun k hk => ?_⟩
  · have h : sampledAt false ((List.replicate (n + 1) true).map idealBit) 0 = seqBit 0 := by
      simp [sampledAt, List.replicate_succ, idealBit]; decide
    simp only [consecutiveMatches, h, if_true]
  · obtain rfl : k = 0 := by omega
    simp [consecutiveMatches]
theorem witness_CountPhaseHasNoEarlyEnd : ∃ (s : State) (m : Ports) (bs : List PolledBit) (S n : Nat),
    s.rstSeen = true ∧ s.regs.phase = .idle ∧ ValidMeasure m ∧
    LocksAfter (sampledAt m.cfgDataPol bs) m.cfgThresh.toNat S ∧ bs.length = S + n ∧
    n < (lengthAt m.cfgLenIdx).toNat :=
  ⟨stateWith completed Ports.quiet, measuring false false 0 1, (List.replicate (999 + 1) true).map idealBit, 1, 999, rfl, rfl,
    by unfold ValidMeasure; decide, matching_locks 999,
    by rw [List.length_map, List.length_replicate], by decide⟩
theorem witness_CompletedMeasurementCountsTheErrors : ∃ (s : State) (m : Ports) (ds : List Bool) (S : Nat),
    s.rstSeen = true ∧ s.regs.phase = .idle ∧ ValidMeasure m ∧
    LocksAfter (sampledAt m.cfgDataPol (ds.map idealBit)) m.cfgThresh.toNat S ∧
    ds.length = S + (lengthAt m.cfgLenIdx).toNat := by
  refine ⟨stateWith completed Ports.quiet, measuring false false 0 1, List.replicate (1000 + 1) true, 1, rfl, rfl,
    by unfold ValidMeasure; decide, matching_locks 1000, ?_⟩
  rw [List.length_replicate]; decide
/-- The same state meets the hypotheses of the step count. -/
theorem witness_IdealClockCompletesInKnownSteps : ∃ (m : Ports) (ds : List Bool) (S n : Nat), ValidMeasure m ∧
    LocksAfter (sampledAt m.cfgDataPol (ds.map idealBit)) m.cfgThresh.toNat S ∧
    ds.length = S + (lengthAt m.cfgLenIdx).toNat ∧ 1 ≤ n ∧ n < 1 + 2 * (S + (lengthAt m.cfgLenIdx).toNat) := by
  obtain ⟨-, m, ds, S, -, -, hv, hl, hn⟩ := witness_CompletedMeasurementCountsTheErrors
  exact ⟨m, ds, S, 1, hv, hl, hn, le_refl 1, by
    have : 0 < S := Nat.pos_of_ne_zero fun h => by
      subst h
      have h0 : 0 = m.cfgThresh.toNat := hl.1
      exact hv.2.2.2 (BitVec.eq_of_toNat_eq h0.symm)
    omega⟩
theorem witness_CompletedCountersStand : ∃ (ps : List Ports) (s t : State), s.rstSeen = true ∧ StepInv s.regs ∧
    s.regs.phase = .idle ∧ s.regs.result = .complete ∧ (∀ p ∈ ps, p.rst = false ∧ ¬ ValidMeasure p) ∧ ps ≠ [] ∧
    runOn ps s = .next t := by
  refine ⟨[presenting 0x40, measuring false false 6 8], stateWith completed Ports.quiet, _, rfl, completed_inv, rfl, rfl, ?_,
    by decide, rfl⟩
  unfold ValidMeasure; decide
theorem witness_ConfigurationEntersOnlyAtMeasure : ∃ s t : State, step s = .next t ∧ s.ports.rst = false ∧
    ¬ StartsMeasurement s := by
  refine ⟨stateWith completed (measuring true true 6 9), _, rfl, rfl, ?_⟩
  unfold StartsMeasurement ValidMeasure; decide
theorem witness_CountersHaveOnlyTheirWriters :
    TakesSyncBit (stateWith (syncing 0xFFF8 3 .syncWaitRise) (polling true true)) ∧
    TakesCountBit (stateWith (counting 0xFF00 5 .countWaitRise) (polling true false)) ∧
    StartsMeasurement (stateWith completed (measuring true true 5 1)) := by
  unfold TakesSyncBit TakesCountBit StartsMeasurement ValidMeasure PollStep; decide
theorem witness_CountersHaveOnlyTheirWriters_final : ∃ s t : State, step s = .next t ∧ StepInv s.regs ∧
    s.regs.countBits = total s.regs ∧ s.ports.rst = false ∧ ¬ StartsMeasurement s := by
  refine ⟨stateWith completed (presenting 0x40), _, rfl, completed_inv, rfl, rfl, ?_⟩
  unfold StartsMeasurement ValidMeasure; decide
theorem witness_CounterAdditionsNeverWrap : ∃ s t : State, StepInv s.regs ∧ step s = .next t ∧
    ¬ TakesSyncBit s ∧ ¬ TakesCountBit s ∧ t.regs.phase = .syncWaitRise :=
  ⟨stateWith (syncing 0xFFFF 0 .syncWaitRise) (polling false true), _, syncing_inv, rfl,
    by unfold TakesSyncBit PollStep; decide, by unfold TakesCountBit PollStep; decide, by decide⟩
/-- The same at the largest values: a count of 65534 and one more, in each of the two phases. -/
theorem witness_CounterAdditionsNeverWrap_top :
    (∃ s t : State, StepInv s.regs ∧ step s = .next t ∧ TakesSyncBit s ∧
      (s.ports.data != s.regs.dataPol) = expected s.regs ∧ t.regs.matchCnt = 65535) ∧
    (∃ s t : State, StepInv s.regs ∧ step s = .next t ∧ TakesCountBit s ∧
      (s.ports.data != s.regs.dataPol) ≠ expected s.regs ∧ t.regs.countBits = 65535 ∧ t.regs.errBits = 65535) :=
  ⟨⟨stateWith topSync (polling true true), _, topSync_inv, rfl, by unfold TakesSyncBit PollStep; decide, by decide, by decide⟩,
    ⟨stateWith topCount (polling true false), _, topCount_inv, rfl, by unfold TakesCountBit PollStep; decide, by decide,
      by decide, by decide⟩⟩
theorem witness_RatioNeedsACompletedMeasurement : StepInv completed ∧ completed.phase = .idle ∧
    completed.result = .complete ∧ completed.countBits ≠ 0 := ⟨completed_inv, by decide⟩
theorem witness_StepKeepsTheInvariant : ∃ s t : State, step s = .next t ∧ s.rstSeen = true ∧ StepInv s.regs ∧
    t.regs ≠ s.regs := ⟨stateWith (syncing 0xFFFF 0 .syncWaitRise) (polling true true), _, rfl, rfl, syncing_inv, by decide⟩
theorem witness_ReachableStatesSatisfyR40 : ∃ (p : Ports) (ps : List Ports) (s t : State), p.rst = true ∧
    runOn (p :: ps) s = .next t ∧ t.regs.phase = .syncWaitFall :=
  ⟨{ Ports.quiet with rst := true }, [measuring false false 0 1, polling true true], State.powerUp completed Ports.quiet [],
    _, rfl, rfl, by decide⟩
theorem witness_ResultCodesHaveOneCauseEach : ∃ s t : State, step s = .next t ∧ t.regs.result ≠ s.regs.result ∧
    t.regs.result = .complete :=
  ⟨stateWith (counting 0x0FFF 1000 .countWaitFall) (polling false true), _, rfl, by decide, by decide⟩
/-- Each cause of a code, at the ends of its range. -/
theorem witness_ResultCodesHaveOneCauseEach_causes :
    StartsMeasurement (stateWith completed (measuring false false 5 65535)) ∧
    Completes (stateWith (counting 0x0FFF 1000 .countWaitFall) (polling false true)) ∧
    (stateWith (counting 0 0 .countWaitRise) (presenting 0x20)).regs.phase ≠ .idle ∧
    (measuring false false 6 0).cfgLenIdx ∈ ([6, 7] : List LenIdx) ∧
    (measuring false false 7 1).cfgLenIdx ∈ ([6, 7] : List LenIdx) ∧
    (measuring false false 5 0).cfgLenIdx.toNat ≤ 5 ∧ (measuring false false 5 0).cfgThresh = 0 := by
  unfold StartsMeasurement Completes ValidMeasure PollStep; decide
theorem witness_RefusalsAreExactlyTheThreeKinds : ∃ (ps : List Ports) (s : State) (r : Refusal),
    runOn ps s = .refused r := ⟨[presenting 0x00, presenting 0x60], State.reset, _, rfl⟩
theorem witness_BusyChangesOnlyAtItsTransitions : ∃ s t u v : State, step s = .next t ∧ busyOut s = false ∧
    busyOut t = true ∧ step u = .next v ∧ busyOut u = true ∧ busyOut v = false :=
  ⟨stateWith completed (measuring false false 0 1), _, stateWith (counting 0x0FFF 1000 .countWaitFall) (polling false true), _,
    rfl, by decide, by decide, rfl, by decide, by decide⟩
theorem witness_MeasurementForgetsThePast : ∃ (s u : State) (m : Ports), s.regs ≠ u.regs ∧ s.rstSeen = true ∧
    u.rstSeen = true ∧ s.regs.phase = .idle ∧ u.regs.phase = .idle ∧ ValidMeasure m :=
  ⟨State.reset, stateWith completed Ports.quiet, measuring false true 2 12, by decide, rfl, rfl, rfl, rfl, by
    unfold ValidMeasure; decide⟩

end Sys2Proof.Tests
end

section
/-! PROOFS. The family of 10_state.md: what a reset writes, what writes the counters and LOCK, and the views. -/

namespace Sys2Proof.Machine

/-! ### Reset -/

/-- A step with RST = 1 always answers, and leaves the registers of R38 (R230). -/
theorem exists_step_of_rst {s : State} (h : s.ports.rst = true) :
    ∃ t, step s = .next t ∧ t.rstSeen = true ∧ t.regs = Regs.reset :=
  ⟨_, step_of_rst h, by simp, by simp⟩

theorem step_regs_of_rst {s t : State} (h : step s = .next t) (hr : s.ports.rst = true) : t.regs = Regs.reset := by
  obtain ⟨u, hu, -, hregs⟩ := exists_step_of_rst hr
  cases hu.symm.trans h
  exact hregs

theorem total_reset : total Regs.reset = 1000 := rfl

/-- Settles O10: the reset step ends in `Regs.reset`, whose fields R38 lists, and so does every further one. -/
theorem resetWritesEveryRegister : Obligations.ResetWritesEveryRegister := by
  intro s hr
  obtain ⟨t, ht, hseen, hregs⟩ := exists_step_of_rst hr
  refine ⟨t, ht, hseen, ?_⟩
  rw [hregs]
  refine ⟨rfl, rfl, rfl, rfl, rfl, rfl, rfl, rfl, rfl, rfl, rfl, total_reset, fun p hp => ?_⟩
  obtain ⟨u, hu, -, hu_regs⟩ := exists_step_of_rst (s := t.setPorts p) hp
  exact ⟨u, hu, hu_regs⟩

/-! ### The steps that write a counter or LOCK -/

section
variable {s t : State}

/-- A step that answers with RST = 0 is one after the first reset. -/
theorem rstSeen_of_step (h : step s = .next t) (hr : s.ports.rst = false) : s.rstSeen = true := by
  rcases step_next_cases h with ⟨hr', -⟩ | ⟨-, hs, -⟩
  · rw [hr] at hr'; cases hr'
  · exact hs

/-- A poll step leaves the registers of `poll`. -/
theorem step_regs_of_pollStep (h : step s = .next t) (hp : PollStep s) : t.regs = poll s.ports s.regs := by
  obtain ⟨hr, hs, hc⟩ := hp
  have hd : decode s.ports.cmd = .ok .nop := by rw [hc]; decide
  rw [step_of_command hr hs hd, exec_nop] at h
  cases h
  simp

theorem step_regs_of_takesSyncBit (h : step s = .next t) (hs : TakesSyncBit s) :
    t.regs = syncBit (s.ports.data != s.regs.dataPol) s.regs := by
  obtain ⟨hpoll, hp, hl⟩ := hs
  rw [step_regs_of_pollStep h hpoll, poll_syncBit hp ((logicalClock_iff _ _).2 hl), sampledBit_eq]

theorem step_regs_of_takesCountBit (h : step s = .next t) (hc : TakesCountBit s) :
    t.regs = countBit (s.ports.data != s.regs.dataPol) s.regs := by
  obtain ⟨hpoll, hp, hl⟩ := hc
  rw [step_regs_of_pollStep h hpoll, poll_countBit hp ((logicalClock_iff _ _).2 hl), sampledBit_eq]

theorem step_regs_of_startsMeasurement (h : step s = .next t) (hm : StartsMeasurement s) :
    t.regs = startMeasurement s.ports s.regs := by
  obtain ⟨⟨hr, hc, hi, hth⟩, hp⟩ := hm
  have hd : decode s.ports.cmd = .ok .measure := by rw [hc]; decide
  have hi' : lenIdxInvalid s.ports = false := by
    rw [Bool.eq_false_iff, Ne, lenIdxInvalid_iff]; omega
  have hth' : threshInvalid s.ports = false := by
    rw [Bool.eq_false_iff, Ne, threshInvalid_iff]; exact hth
  rw [step_of_command hr (rstSeen_of_step h hr) hd, exec_measure, whenIdle_idle hp] at h
  cases h
  simp [hi', hth']

/-- The counters and LOCK stand alike in two register states. -/
def SameCountersAndLock (r q : Regs) : Prop :=
  q.matchCnt = r.matchCnt ∧ q.errBits = r.errBits ∧ q.countBits = r.countBits ∧ q.lock = r.lock

/-- The only steps that can write a counter or LOCK: RST, a valid MEASURE, SYNC-BIT and COUNT-BIT (R23 to R25, R27). -/
theorem step_writer_or_same (h : step s = .next t) :
    s.ports.rst = true ∨ StartsMeasurement s ∨ TakesSyncBit s ∨ TakesCountBit s ∨ SameCountersAndLock s.regs t.regs := by
  cases (step_effect h).1 with
  | reset hr _ => exact .inl hr
  | measure hr hc hp hi hth _ => exact .inr (.inl ⟨⟨hr, hc, hi, hth⟩, hp⟩)
  | syncBit hr hc hp hl _ => exact .inr (.inr (.inl ⟨⟨hr, rstSeen_of_step h hr, hc⟩, hp, hl⟩))
  | countBit hr hc hp hl _ => exact .inr (.inr (.inr (.inl ⟨⟨hr, rstSeen_of_step h hr, hc⟩, hp, hl⟩)))
  | _ =>
    refine .inr (.inr (.inr (.inr ?_)))
    simp [SameCountersAndLock, *]

theorem step_matchCnt_eq (h : step s = .next t) (hr : s.ports.rst = false) (hm : ¬ StartsMeasurement s)
    (hs : ¬ TakesSyncBit s) : t.regs.matchCnt = s.regs.matchCnt := by
  rcases step_writer_or_same h with hr' | hm' | hs' | hc | ⟨hmatch, -⟩
  · rw [hr] at hr'; cases hr'
  · exact absurd hm' hm
  · exact absurd hs' hs
  · rw [step_regs_of_takesCountBit h hc, countBit_matchCnt]
  · exact hmatch

theorem step_lock_eq (h : step s = .next t) (hr : s.ports.rst = false) (hm : ¬ StartsMeasurement s)
    (hs : ¬ TakesSyncBit s) : t.regs.lock = s.regs.lock := by
  rcases step_writer_or_same h with hr' | hm' | hs' | hc | ⟨-, -, -, hlock⟩
  · rw [hr] at hr'; cases hr'
  · exact absurd hm' hm
  · exact absurd hs' hs
  · rw [step_regs_of_takesCountBit h hc, countBit_lock]
  · exact hlock

theorem step_window_eq (h : step s = .next t) (hr : s.ports.rst = false) (hm : ¬ StartsMeasurement s)
    (hc : ¬ TakesCountBit s) : t.regs.errBits = s.regs.errBits ∧ t.regs.countBits = s.regs.countBits := by
  rcases step_writer_or_same h with hr' | hm' | hs | hc' | ⟨-, herr, hcount, -⟩
  · rw [hr] at hr'; cases hr'
  · exact absurd hm' hm
  · rw [step_regs_of_takesSyncBit h hs, syncBit_errBits, syncBit_countBits]; exact ⟨rfl, rfl⟩
  · exact absurd hc' hc
  · exact ⟨herr, hcount⟩

/-- RST and a valid MEASURE clear the three counters and LOCK. -/
theorem step_clears (h : step s = .next t) (hw : s.ports.rst = true ∨ StartsMeasurement s) :
    t.regs.matchCnt = 0 ∧ t.regs.errBits = 0 ∧ t.regs.countBits = 0 ∧ t.regs.lock = false := by
  rcases hw with hr | hm
  · rw [step_regs_of_rst h hr]; exact ⟨rfl, rfl, rfl, rfl⟩
  · rw [step_regs_of_startsMeasurement h hm]; exact ⟨rfl, rfl, rfl, rfl⟩

/-- Under the invariant a window that has reached TOTAL takes no further bit (R25). -/
theorem not_takesCountBit_of_full (hinv : StepInv s.regs) (hfull : s.regs.countBits = total s.regs) :
    ¬ TakesCountBit s := by
  rintro ⟨-, hp, -⟩
  have hlt := hinv.count_lt hp
  rw [hfull] at hlt
  exact Nat.lt_irrefl _ hlt

end

/-- Settles O46: each clause is the equation of its writer, or says that a step of no writer's kind leaves the counter. -/
theorem countersHaveOnlyTheirWriters : Obligations.CountersHaveOnlyTheirWriters := by
  intro s t h
  refine ⟨fun hw => ?clears, fun hs heq => ?syncMatch, fun hs hne => ?syncMismatch, fun hc hne => ?countError,
    fun hc heq => ?countNoError, fun hc => ?counted, step_matchCnt_eq h, step_window_eq h,
    fun hinv hfull hr hm => step_window_eq h hr hm (not_takesCountBit_of_full hinv hfull)⟩
  case clears =>
    obtain ⟨hmatch, herr, hcount, -⟩ := step_clears h hw
    exact ⟨hmatch, herr, hcount⟩
  case syncMatch => rw [step_regs_of_takesSyncBit h hs, syncBit_matchCnt]; exact if_pos heq
  case syncMismatch => rw [step_regs_of_takesSyncBit h hs, syncBit_matchCnt]; exact if_neg hne
  case countError => rw [step_regs_of_takesCountBit h hc, countBit_errBits]; exact if_neg hne
  case countNoError => rw [step_regs_of_takesCountBit h hc, countBit_errBits]; exact if_pos heq
  case counted => rw [step_regs_of_takesCountBit h hc, countBit_countBits]

/-! ### LOCK -/

section
variable {s t : State}

/-- A SYNC-BIT leaves LOCK set exactly if it was set or MATCH_CNT has become THRESH (R141, R143). -/
theorem lock_of_takesSyncBit (h : step s = .next t) (hs : TakesSyncBit s) :
    t.regs.lock = true ↔ s.regs.lock = true ∨ t.regs.matchCnt = s.regs.thresh := by
  rw [step_regs_of_takesSyncBit h hs, syncBit_lock, Bool.or_eq_true, beq_iff_eq]

/-- LOCK rises in a SYNC-BIT only. -/
theorem takesSyncBit_of_lock_rise (h : step s = .next t) (h0 : s.regs.lock = false) (h1 : t.regs.lock = true) :
    TakesSyncBit s := by
  by_contra hs
  by_cases hw : s.ports.rst = true ∨ StartsMeasurement s
  · obtain ⟨-, -, -, hlock⟩ := step_clears h hw
    simp [hlock] at h1
  · rw [not_or, Bool.not_eq_true] at hw
    obtain ⟨hr, hm⟩ := hw
    rw [step_lock_eq h hr hm hs, h0] at h1
    cases h1

/-- LOCK falls in a reset or at a valid MEASURE only. -/
theorem clear_of_lock_fall (h : step s = .next t) (h1 : s.regs.lock = true) (h0 : t.regs.lock = false) :
    s.ports.rst = true ∨ StartsMeasurement s := by
  by_contra hw
  rw [not_or, Bool.not_eq_true] at hw
  obtain ⟨hr, hm⟩ := hw
  have hlock : t.regs.lock = true := by
    by_cases hs : TakesSyncBit s
    · exact (lock_of_takesSyncBit h hs).2 (.inl h1)
    · rw [step_lock_eq h hr hm hs, h1]
  rw [h0] at hlock
  cases hlock

end

/-- Settles O28: LOCK rises in a SYNC-BIT that reaches THRESH, and falls where the counters are cleared. -/
theorem lockChangesOnlyAtItsTransitions : Obligations.LockChangesOnlyAtItsTransitions := by
  intro s t h
  refine ⟨fun h0 h1 => ?rise, clear_of_lock_fall h, fun hs heq => (lock_of_takesSyncBit h hs).2 (.inr heq),
    fun hw => ?clears, rfl⟩
  case rise =>
    have hs := takesSyncBit_of_lock_rise h h0 h1
    exact ⟨hs, ((lock_of_takesSyncBit h hs).1 h1).resolve_left (by simp [h0])⟩
  case clears =>
    obtain ⟨-, -, -, hlock⟩ := step_clears h hw
    exact hlock

/-! ### TOTAL -/

/-- An index of the table selects its entry. -/
theorem lenTable_getElem? (i : LenIdx) (h : i.toNat ≤ 5) : Param.lenTable[i.toNat]? = some (lengthAt i) := by
  have hlt : i.toNat < Param.lenTable.length := Nat.lt_succ_of_le h
  rw [lengthAt, List.getElem?_eq_getElem hlt, Option.getD_some]

/-- The table of R9 and R10 as numbers. -/
theorem lenTable_map_toNat : Param.lenTable.map BitVec.toNat = [1000, 5000, 10000, 30000, 50000, 65535] := rfl

/-- Settles O39: the table of numbers is the model's table, read as numbers. -/
theorem totalIsTheTableEntry : Obligations.TotalIsTheTableEntry := by
  intro r h
  rw [← lenTable_map_toNat, List.getElem?_map, lenTable_getElem? r.lenIdx h]
  rfl

/-! ### STATUS -/

section
variable (r : Regs)

/-- The bits of STATUS, from the right end of R33's concatenation: the three flags, then the two codes. -/
theorem statusView_getLsbD {i : Nat} (hi : i < 16) : (statusView r).getLsbD i =
    if i = 0 then busy r else if i = 1 then r.lock else if i = 2 then expected r
    else if i < 6 then r.phase.code.getLsbD (i - 3) else r.result.code.getLsbD (i - 6) := by
  unfold statusView
  simp only [BitVec.getLsbD_setWidth, BitVec.getLsbD_append, BitVec.getLsbD_ofBool, decide_eq_true hi, Bool.true_and]
  rcases i with _ | _ | _ | i
  · simp
  · simp
  · simp
  · simp [show i + 1 + 1 + 1 < 6 ↔ i < 3 by omega]

theorem statusView_busy : (statusView r).getLsbD 0 = busy r := statusView_getLsbD r (by decide)

theorem statusView_lock : (statusView r).getLsbD 1 = r.lock := statusView_getLsbD r (by decide)

theorem statusView_expected : (statusView r).getLsbD 2 = r.lfsr.getLsbD 15 := statusView_getLsbD r (by decide)

/-- Above the flags STATUS holds the code of PHASE, in bits 5:3. -/
theorem statusView_getLsbD_phase {i : Nat} (hi : i < 3) : (statusView r).getLsbD (3 + i) = r.phase.code.getLsbD i := by
  rw [statusView_getLsbD r (by omega), if_neg (by omega), if_neg (by omega), if_neg (by omega), if_pos (by omega),
    Nat.add_sub_cancel_left]

/-- From bit 6 on STATUS holds the code of RESULT, and zeros above it. -/
theorem statusView_getLsbD_result {i : Nat} (hi : i < 10) :
    (statusView r).getLsbD (6 + i) = r.result.code.getLsbD i := by
  rw [statusView_getLsbD r (by omega), if_neg (by omega), if_neg (by omega), if_neg (by omega), if_neg (by omega),
    Nat.add_sub_cancel_left]

/-- A field of STATUS is `v` when its bits are. -/
theorem statusView_field {n k : Nat} {v : BitVec k} (h : ∀ i, i < k → (statusView r).getLsbD (n + i) = v.getLsbD i) :
    (statusView r).extractLsb' n k = v :=
  BitVec.eq_of_getLsbD_eq fun i hi => by rw [BitVec.getLsbD_extractLsb', h i hi, decide_eq_true hi, Bool.true_and]

theorem statusView_phase : (statusView r).extractLsb' 3 3 = r.phase.code :=
  statusView_field r fun _ hi => statusView_getLsbD_phase r hi

theorem statusView_result : (statusView r).extractLsb' 6 3 = r.result.code :=
  statusView_field r fun _ hi => statusView_getLsbD_result r (by omega)

theorem statusView_unused : (statusView r).extractLsb' 9 7 = 0 :=
  statusView_field r fun i hi => by
    rw [show 9 + i = 6 + (3 + i) by omega, statusView_getLsbD_result r (by omega),
      BitVec.getLsbD_of_ge _ _ (Nat.le_add_right 3 i)]
    exact BitVec.getLsbD_zero.symm

end

/-- Settles O55: each field of R33 is read off the bits of the view, and the outputs are three of its bits. -/
theorem statusFields : Obligations.StatusFields := by
  refine ⟨⟨rfl, rfl, rfl, rfl, rfl⟩, fun r => ⟨?_, statusView_lock r, statusView_expected r, statusView_phase r,
    statusView_result r, statusView_unused r, ?_⟩⟩
  · rw [statusView_busy, busy_iff]
  · rintro s rfl
    exact ⟨rfl, (statusView_expected _).symm, rfl, (statusView_lock _).symm, busy_iff _, (statusView_busy _).symm⟩

end Sys2Proof.Machine
end

section
/-! PROOFS. The family of 20_memory.md: the register read space, and that reading it has no side effect. The layer before it
says how the outcome of a step depends on the ports: other statements about ports that do not matter can cite it. -/

namespace Sys2Proof.Machine

/-! ### The refusals of the step itself -/

theorem step_of_not_rstSeen {s : State} (hr : s.ports.rst = false) (hs : s.rstSeen = false) :
    step s = .refused .beforeReset := by
  simp [step, hr, hs]

theorem step_of_illegal {s : State} {e : DecodeError} (hr : s.ports.rst = false) (hs : s.rstSeen = true)
    (hd : decode s.ports.cmd = .error e) : step s = .refused .illegalCommand := by
  simp [step, hr, hs, fetch, hd]

/-! ### Outcomes that agree -/

/-- Agreeing outcomes still agree when the inputs have moved on. -/
theorem sameOutcome_thenNextInputs {m : Regs → Regs} {a b : Host.Outcome State Fault Refusal} (h : SameOutcome m a b) :
    SameOutcome m (thenNextInputs a) (thenNextInputs b) := by
  cases a with
  | next s =>
    cases b with
    | next t =>
      obtain ⟨hregs, hseen⟩ := h
      exact ⟨by rw [nextInputs_regs, nextInputs_regs, hregs], by rw [nextInputs_rstSeen, nextInputs_rstSeen, hseen]⟩
    | fault f => cases f
    | refused r => exact h.elim
  | fault f => cases f
  | refused r =>
    cases b with
    | next t => exact h.elim
    | fault f => cases f
    | refused r' => exact h

/-- A command of IDLE has agreeing outcomes under other ports when its effect on the registers is the same. -/
theorem whenIdle_setPorts_sameOutcome {f g : Regs → Regs} {s : State} {p : Ports} (h : g s.regs = f s.regs) :
    SameOutcome id (whenIdle f s) (whenIdle g (s.setPorts p)) := by
  by_cases hp : s.regs.phase = .idle
  · rw [whenIdle_idle hp, whenIdle_idle (s := s.setPorts p) hp]
    exact ⟨h, rfl⟩
  · rw [whenIdle_busy hp, whenIdle_busy (s := s.setPorts p) hp]
    rfl

/-! ### How a step depends on the ports -/

/-- What MEASURE does to the registers in IDLE, with the configuration of `p` (R162, R163). -/
def measureEffect (p : Ports) (r : Regs) : Regs :=
  if lenIdxInvalid p || threshInvalid p then invalidConfiguration p r else startMeasurement p r

theorem exec_measure_eq_whenIdle (s : State) : exec .measure s = whenIdle (measureEffect s.ports) s := rfl

/-- A command reads the ports in two places only: NOP in its poll step, MEASURE for its configuration. -/
theorem exec_setPorts_sameOutcome {i : Instr} {s : State} {p : Ports}
    (hpoll : i = .nop → poll p s.regs = poll s.ports s.regs)
    (hmeasure : i = .measure → measureEffect p s.regs = measureEffect s.ports s.regs) :
    SameOutcome id (exec i s) (exec i (s.setPorts p)) := by
  cases i with
  | nop => exact ⟨hpoll rfl, rfl⟩
  | measure => exact whenIdle_setPorts_sameOutcome (hmeasure rfl)
  | abort => exact ⟨rfl, rfl⟩
  | sgReset => exact whenIdle_setPorts_sameOutcome rfl
  | sgAdvance => exact whenIdle_setPorts_sameOutcome rfl
  | sgForce b => exact whenIdle_setPorts_sameOutcome rfl

/-- Ports that agree on RST and CMD give a step agreeing outcomes, unless the step runs a command whose outcomes differ. -/
theorem step_setPorts_sameOutcome {s : State} {p : Ports} (hrst : p.rst = s.ports.rst) (hcmd : p.cmd = s.ports.cmd)
    (hexec : s.ports.rst = false → ∀ i, decode s.ports.cmd = .ok i → SameOutcome id (exec i s) (exec i (s.setPorts p))) :
    SameOutcome id (step s) (step (s.setPorts p)) := by
  cases hr : s.ports.rst with
  | true =>
    rw [step_of_rst hr, step_of_rst (s := s.setPorts p) (hrst.trans hr)]
    simp [SameOutcome]
  | false =>
    have hr' : (s.setPorts p).ports.rst = false := hrst.trans hr
    cases hs : s.rstSeen with
    | false =>
      rw [step_of_not_rstSeen hr hs, step_of_not_rstSeen hr' hs]
      rfl
    | true =>
      cases hd : decode s.ports.cmd with
      | error e =>
        rw [step_of_illegal hr hs hd, step_of_illegal (e := e) hr' hs (by rw [State.setPorts_ports, hcmd, hd])]
        rfl
      | ok i =>
        rw [step_of_command hr hs hd, step_of_command (i := i) hr' hs (by rw [State.setPorts_ports, hcmd, hd])]
        exact sameOutcome_thenNextInputs (hexec hr i hd)

/-! ### The register read space -/

/-- Settles O57: each address reads its register or view, none of them cut or widened. -/
theorem readSpaceHoldsEveryRegister : Obligations.ReadSpaceHoldsEveryRegister := fun r =>
  ⟨regRead_status r, regRead_lfsr r, regRead_matchCnt r, regRead_errBits r, regRead_countBits r, regRead_config r,
    regRead_thresh r, regRead_total r⟩

/-- Settles O58: RDATA is the read port's definition; and RADDR is none of the ports that the step, a poll or MEASURE reads. -/
theorem readingHasNoSideEffect : Obligations.ReadingHasNoSideEffect := by
  intro s a
  refine ⟨rfl, rfl, ?_⟩
  have hpoll : poll { s.ports with raddr := a } s.regs = poll s.ports s.regs := rfl
  have hmeasure : measureEffect { s.ports with raddr := a } s.regs = measureEffect s.ports s.regs := rfl
  exact step_setPorts_sameOutcome (p := { s.ports with raddr := a }) rfl rfl fun _ _ _ =>
    exec_setPorts_sameOutcome (fun _ => hpoll) fun _ => hmeasure

end Sys2Proof.Machine
end

section
/-! PROOFS. The family of 30_encoding.md: which words are illegal, which commands a phase refuses, and the steps of a
host script. -/

namespace Sys2Proof.Machine

/-! ### The fields of a word as numbers -/

theorem opField_toNat (w : CmdWord) : (opField w).toNat = w.toNat / 16 := by
  have hlt : w.toNat < 256 := w.isLt
  rw [opField, BitVec.extractLsb'_toNat, Nat.shiftRight_eq_div_pow]
  omega

theorem rsvField_toNat (w : CmdWord) : (rsvField w).toNat = w.toNat / 2 % 8 := by
  rw [rsvField, BitVec.extractLsb'_toNat, Nat.shiftRight_eq_div_pow]

theorem rsvField_eq_zero_iff (w : CmdWord) : rsvField w = 0 ↔ w.toNat / 2 % 8 = 0 := by
  rw [← rsvField_toNat, ← BitVec.toNat_inj]
  rfl

theorem operandField_iff (w : CmdWord) : operandField w = true ↔ w.toNat % 2 = 1 := by
  rw [operandField, BitVec.getLsbD, Nat.testBit_zero, decide_eq_true_iff]

/-! ### Legal and illegal words -/

theorem mem_allCommands (i : Instr) : i ∈ allCommands := by
  cases i with
  | sgForce b => cases b <;> decide
  | _ => decide

/-- The pairs of OP and B that name a command: B is free for SG.FORCE alone (R72, R73). -/
theorem exists_command_iff (op : BitVec 4) (b : Bool) :
    (∃ i, opOf i = op ∧ operandOf i = b) ↔ op.toNat ≤ 5 ∧ (b = true → op.toNat = 5) := by
  constructor
  · rintro ⟨i, rfl, rfl⟩
    cases i <;> simp [opOf, operandOf]
  · have hlisted : ∀ (op : BitVec 4) (b : Bool), op.toNat ≤ 5 ∧ (b = true → op.toNat = 5) →
        ∃ i ∈ allCommands, opOf i = op ∧ operandOf i = b := by decide
    intro h
    obtain ⟨i, -, hi⟩ := hlisted op b h
    exact ⟨i, hi⟩

/-- The legal words by number: the negation of R74's three clauses. -/
theorem exists_decode_ok_iff (w : CmdWord) : (∃ i, decode w = .ok i) ↔
    w.toNat / 2 % 8 = 0 ∧ w.toNat / 16 ≤ 5 ∧ (w.toNat % 2 = 1 → w.toNat / 16 = 5) := by
  simp only [decode_ok_iff_fields, exists_and_left, exists_command_iff, opField_toNat, operandField_iff,
    rsvField_eq_zero_iff]

theorem decode_ne_ok_iff (w : CmdWord) : (∀ i, decode w ≠ .ok i) ↔
    6 ≤ w.toNat / 16 ∨ (w.toNat / 2) % 8 ≠ 0 ∨ (w.toNat % 2 = 1 ∧ w.toNat / 16 ≠ 5) := by
  rw [← not_exists, exists_decode_ok_iff]
  omega

/-! ### How many words are legal -/

theorem decode_encode (i : Instr) : decode (encode i) = .ok i :=
  (decode_ok_iff_fields _ _).2 ⟨rsvField_encode i, (opField_encode i).symm, (operandField_encode i).symm⟩

theorem decodeTableWord_eq_some_iff {nbits w : Nat} {i : Instr} :
    decodeTableWord nbits w = some i ↔ commandWord nbits w = encode i := by
  have hdecode : decodeTableWord nbits w = some i ↔ decode (commandWord nbits w) = .ok i := by
    unfold decodeTableWord
    cases decode (commandWord nbits w) <;> simp
  rw [hdecode]
  exact ⟨fun h => (encode_of_decode h).symm, fun h => h ▸ decode_encode i⟩

/-- The word of a number that fits CMD. -/
theorem commandWord_eq_iff {n : Nat} (hn : n < 256) (w : CmdWord) : commandWord 8 n = w ↔ w.toNat = n := by
  rw [← BitVec.toNat_inj, commandWord, BitVec.toNat_ofNat, Nat.mod_mod, Nat.mod_eq_of_lt (b := 2 ^ 8) hn, eq_comm]

/-- The legal numbers are the words of the seven commands. -/
theorem legalNumbers_perm : ((List.range 256).filter fun n => (decodeTableWord 8 n).isSome).Perm
    (allCommands.map fun i => (encode i).toNat) := by
  refine (List.perm_ext_iff_of_nodup (List.nodup_range.filter _) (by decide)).2 fun n => ?_
  simp only [List.mem_filter, List.mem_range, List.mem_map, Option.isSome_iff_exists, decodeTableWord_eq_some_iff,
    mem_allCommands, true_and]
  constructor
  · rintro ⟨hn, i, hi⟩
    exact ⟨i, (commandWord_eq_iff hn _).1 hi⟩
  · rintro ⟨i, rfl⟩
    exact ⟨(encode i).isLt, i, (commandWord_eq_iff (encode i).isLt _).2 rfl⟩

/-- What is left of the 256 words when the seven legal ones are taken out. -/
theorem illegalNumbers_length : ((List.range 256).filter fun n => (decodeTableWord 8 n).isNone).length = 249 := by
  have hsplit := List.length_eq_length_filter_add (l := List.range 256) fun n => (decodeTableWord 8 n).isSome
  rw [legalNumbers_perm.length_eq, List.length_map, List.length_range] at hsplit
  simp only [Option.not_isSome] at hsplit
  exact Nat.add_left_cancel hsplit.symm

/-- Settles O3: the fields are read as numbers, the legal words counted, and the rejection reaches the step. -/
theorem illegalWordsAreRefused : Obligations.IllegalWordsAreRefused := by
  refine ⟨decode_ne_ok_iff, illegalNumbers_length, fun s hr hs hillegal => ?_⟩
  cases hd : decode s.ports.cmd with
  | ok i => exact absurd hd (hillegal i)
  | error e => exact step_of_illegal hr hs hd

/-! ### Which commands a phase refuses -/

/-- Every command but NOP and ABORT is a command of IDLE. -/
theorem exec_eq_whenIdle {i : Instr} (hnop : i ≠ .nop) (habort : i ≠ .abort) (s : State) :
    ∃ effect, exec i s = whenIdle effect s := by
  cases i with
  | nop => exact absurd rfl hnop
  | abort => exact absurd rfl habort
  | measure => exact ⟨_, exec_measure s⟩
  | sgReset => exact ⟨_, exec_sgReset s⟩
  | sgAdvance => exact ⟨_, exec_sgAdvance s⟩
  | sgForce b => exact ⟨_, exec_sgForce s b⟩

/-- NOP and ABORT are accepted in every phase. -/
theorem exec_nop_or_abort_next {i : Instr} (h : i = .nop ∨ i = .abort) (s : State) : ∃ t, exec i s = .next t := by
  rcases h with rfl | rfl
  · exact ⟨_, exec_nop s⟩
  · exact ⟨_, exec_abort s⟩

theorem exec_abort_idle {s : State} (h : s.regs.phase = .idle) : exec .abort s = .next s := by
  rw [exec_abort, (busy_false_iff _).2 h]
  rfl

theorem exec_abort_busy {s : State} (h : s.regs.phase ≠ .idle) :
    exec .abort s = .next (s.setRegs (endMeasurement .aborted s.regs)) := by
  rw [exec_abort, (busy_iff _).2 h]
  rfl

theorem exec_idle_next {s : State} (h : s.regs.phase = .idle) (i : Instr) : ∃ t, exec i s = .next t := by
  by_cases hi : i = .nop ∨ i = .abort
  · exact exec_nop_or_abort_next hi s
  · obtain ⟨hnop, habort⟩ := not_or.1 hi
    obtain ⟨effect, heffect⟩ := exec_eq_whenIdle hnop habort s
    exact ⟨_, heffect.trans (whenIdle_idle h)⟩

/-- Settles O4: NOP and ABORT always answer, and every other command is `whenIdle` of its effect. -/
theorem commandLegalityByPhase : Obligations.CommandLegalityByPhase := by
  intro i s
  refine ⟨fun hidle => exec_idle_next hidle i, fun _ hi => exec_nop_or_abort_next hi s, fun hbusy hnop habort => ?_,
    exec_abort_idle, fun hbusy => ⟨_, exec_abort_busy hbusy, rfl⟩⟩
  obtain ⟨effect, heffect⟩ := exec_eq_whenIdle hnop habort s
  exact heffect.trans (whenIdle_busy hbusy)

/-! ### Runs over two lists -/

/-- A run that ends in a state has passed through the end of its first part. -/
theorem runOn_append_next {ps qs : List Ports} {s t : State} (h : runOn (ps ++ qs) s = .next t) :
    ∃ u, runOn ps s = .next u ∧ runOn qs u = .next t := by
  induction ps generalizing s with
  | nil => exact ⟨s, rfl, h⟩
  | cons p ps ih =>
    cases hp : stepOn p s with
    | next s' =>
      rw [List.cons_append, runOn_cons_next hp] at h
      rw [runOn_cons_next hp]
      exact ih h
    | fault f => cases f
    | refused r => simp [runOn, hp] at h

/-- A refusal ends the run (R206). -/
theorem runOn_append_refused {ps : List Ports} {s : State} {r : Refusal} (h : runOn ps s = .refused r)
    (qs : List Ports) : runOn (ps ++ qs) s = .refused r := by
  induction ps generalizing s with
  | nil => cases h
  | cons p ps ih =>
    cases hp : stepOn p s with
    | next s' =>
      rw [runOn_cons_next hp] at h
      rw [List.cons_append, runOn_cons_next hp, ih h]
    | fault f => cases f
    | refused r' => simpa [runOn, hp] using h

/-! ### Playing a script -/

section
variable {held : Ports} {l : HostLine} {ls : List HostLine} {s s' : State}

theorem playScript_cons_next (h : runOn (lineSteps held l) s = .next s') : playScript held (l :: ls) s =
    ((playScript (holdAfter held l) ls s').1, lineReads s l ++ (playScript (holdAfter held l) ls s').2) := by
  simp [playScript, h]

theorem playScript_cons_refused {r : Refusal} (h : runOn (lineSteps held l) s = .refused r) :
    playScript held (l :: ls) s = (.refused r, lineReads s l) := by
  simp [playScript, h]

/-- Playing a script ends as presenting its steps does. -/
theorem playScript_outcome : (playScript held ls s).1 = runOn (scriptSteps held ls) s := by
  induction ls generalizing held s with
  | nil => rfl
  | cons l ls ih =>
    rw [scriptSteps]
    cases h : runOn (lineSteps held l) s with
    | next s' => rw [playScript_cons_next h, runOn_append h, ih]
    | fault f => cases f
    | refused r => rw [playScript_cons_refused h, runOn_append_refused h]

theorem lineReads_eq_nil (h : ∀ reg, l ≠ .read reg) : lineReads s l = [] := by
  cases l with
  | read reg => exact absurd rfl (h reg)
  | _ => rfl

/-- A script without READ gives no values. -/
theorem playScript_reads_eq_nil (h : ∀ reg, .read reg ∉ ls) : (playScript held ls s).2 = [] := by
  induction ls generalizing held s with
  | nil => rfl
  | cons l ls ih =>
    have hl : lineReads s l = [] := lineReads_eq_nil fun reg e => h reg (e ▸ List.mem_cons_self)
    have hls : ∀ reg, .read reg ∉ ls := fun reg hmem => h reg (List.mem_cons_of_mem l hmem)
    cases hrun : runOn (lineSteps held l) s with
    | next s' => rw [playScript_cons_next hrun, hl, ih hls]; rfl
    | fault f => cases f
    | refused r => rw [playScript_cons_refused hrun, hl]

/-- The lines after a script read in the state and under the configuration it has left. -/
theorem playScript_append_reads {ms : List HostLine} {t : State} (h : runOn (scriptSteps held ls) s = .next t) :
    (playScript held (ls ++ ms) s).2 = (playScript held ls s).2 ++ (playScript (ls.foldl holdAfter held) ms t).2 := by
  induction ls generalizing held s with
  | nil => cases h; rfl
  | cons l ls ih =>
    rw [scriptSteps] at h
    obtain ⟨u, hline, hrest⟩ := runOn_append_next h
    rw [List.cons_append, playScript_cons_next hline, playScript_cons_next hline, ih hrest, List.append_assoc]
    rfl

/-- READ takes no step and gives its register (R79). -/
theorem playScript_read (reg : ReadReg) : playScript held [.read reg] s = (.next s, [regRead reg.addr s.regs]) := rfl

end

/-! ### The lines -/

theorem streamLine_eq_ofFn (k : Nat) (f : Nat → Bool) : streamLine k f = .bits (List.ofFn fun j : Fin k => f j) := by
  rw [streamLine, ← List.map_coe_finRange_eq_range, List.map_map, List.ofFn_eq_map]
  rfl

/-- Settles O6: each line's steps are those of `lineSteps`; the runs are inductions over the script. -/
theorem playingAScriptPresentsItsSteps : Obligations.PlayingAScriptPresentsItsSteps := by
  refine ⟨rfl, fun held ls => ⟨rfl, rfl, fun _ _ _ _ => rfl, fun _ _ _ => rfl, fun _ => rfl, rfl, fun _ _ => rfl,
    rfl, fun _ _ => rfl, streamLine_eq_ofFn, fun _ => rfl, fun _ => playScript_outcome,
    fun _ => playScript_reads_eq_nil, fun s t reg hrun => ⟨?_, ?_⟩⟩⟩
  · rw [playScript_append_reads hrun, playScript_read]
  · intro p hp
    rw [rdata, State.setPorts_ports, hp]
    rfl

end Sys2Proof.Machine
end

section
/-! PROOFS. The family of 40_sequence_generator.md: the feedback taps, and the three SequenceGenerator commands. -/

namespace Sys2Proof.Machine

/-! ### The override, cell by cell -/

section
variable (b : Bool) (l : Lfsr)

theorem forceOverride_cell_out : (forceOverride b l).getLsbD 15 = b :=
  (forceOverride_cell b l 15 (by decide)).trans (if_pos rfl)

theorem forceOverride_cell_of_lt {i : Nat} (hi : i < 15) : (forceOverride b l).getLsbD i = l.getLsbD i :=
  (forceOverride_cell b l i (Nat.lt_succ_of_lt hi)).trans (if_neg (Nat.ne_of_lt hi))

/-- Forcing the value that cell[15] holds changes nothing (R108). -/
theorem forceOverride_of_cell_out {b : Bool} {l : Lfsr} (h : l.getLsbD 15 = b) : forceOverride b l = l := by
  refine lfsr_ext fun i hi => ?_
  rcases Nat.lt_succ_iff_lt_or_eq.1 hi with hlt | rfl
  · exact forceOverride_cell_of_lt b l hlt
  · rw [forceOverride_cell_out, h]

/-- The advance after an override discards the cell it wrote (R104). -/
theorem advance_forceOverride : advance (forceOverride b l) = advance l :=
  advance_congr fun _ hi => forceOverride_cell_of_lt b l hi

end

/-! ### The commands in IDLE -/

theorem seed_cell_out : (0xFFFF : Lfsr).getLsbD 15 = true := by decide

theorem expected_eq (r : Regs) : expected r = r.lfsr.getLsbD 15 := rfl

/-- Writing the LFSR it holds leaves a state unchanged. -/
theorem State.setRegs_setLfsr_self (s : State) : s.setRegs (s.regs.setLfsr s.regs.lfsr) = s := rfl

section
variable {s : State} (h : s.regs.phase = .idle)
include h

theorem exec_sgReset_idle : exec .sgReset s = .next (s.setRegs (s.regs.setLfsr 0xFFFF)) :=
  (exec_sgReset s).trans (whenIdle_idle h)

theorem exec_sgAdvance_idle : exec .sgAdvance s = .next (s.setRegs (s.regs.setLfsr (advance s.regs.lfsr))) :=
  (exec_sgAdvance s).trans (whenIdle_idle h)

theorem exec_sgForce_idle (b : Bool) :
    exec (.sgForce b) s = .next (s.setRegs (s.regs.setLfsr (forceOverride b s.regs.lfsr))) :=
  (exec_sgForce s b).trans (whenIdle_idle h)

/-- SG.RESET leaves a seeded LFSR as it is (R106). -/
theorem exec_sgReset_of_seeded (hseed : s.regs.lfsr = 0xFFFF) : exec .sgReset s = .next s := by
  rw [exec_sgReset_idle h, ← hseed, State.setRegs_setLfsr_self]

/-- SG.FORCE of the value that cell[15] holds leaves the state as it is (R108). -/
theorem exec_sgForce_of_cell_out {b : Bool} (hb : s.regs.lfsr.getLsbD 15 = b) : exec (.sgForce b) s = .next s := by
  rw [exec_sgForce_idle h, forceOverride_of_cell_out hb, State.setRegs_setLfsr_self]

/-- SG.ADVANCE after an override ends where it would have ended without it (R108). -/
theorem exec_sgAdvance_after_override (b : Bool) :
    exec .sgAdvance (s.setRegs (s.regs.setLfsr (forceOverride b s.regs.lfsr))) = exec .sgAdvance s := by
  rw [exec_sgAdvance_idle h, ← advance_forceOverride b s.regs.lfsr]
  exact exec_sgAdvance_idle (s := s.setRegs (s.regs.setLfsr (forceOverride b s.regs.lfsr))) h

end

/-- Settles O12: the taps are the definition of the feedback, so values that agree in them have the same feedback. -/
theorem feedbackReadsCells7And11 : Obligations.FeedbackReadsCells7And11 := fun l m =>
  ⟨feedback_eq l, fun h7 h11 => by rw [feedback_eq, feedback_eq, h7, h11]⟩

/-- Settles O14: in IDLE the command writes the seed, whose cell[15] is 1; while busy it is refused. -/
theorem sgResetReseedsTheLfsr : Obligations.SgResetReseedsTheLfsr :=
  ⟨decode_encode .sgReset, fun s => ⟨fun hidle => ⟨exec_sgReset_idle hidle, (expected_eq _).trans seed_cell_out⟩,
    exec_sgReset_of_seeded, fun hbusy => (exec_sgReset s).trans (whenIdle_busy hbusy)⟩⟩

/-- Settles O15: the LFSR value is `advance` of the old one, and the cell that reaches cell[15] was cell[14]. -/
theorem sgAdvanceShiftsTheLfsrOnce : Obligations.SgAdvanceShiftsTheLfsrOnce := by
  refine ⟨decode_encode .sgAdvance, fun s => ⟨fun hidle => ?_, fun hbusy => ?_⟩, by decide, by decide, by decide⟩
  · exact ⟨advance s.regs.lfsr, exec_sgAdvance_idle hidle, advance_cell_zero _, advance_cell_succ _,
      (expected_eq _).trans (advance_cell_succ _ 14 (by decide))⟩
  · exact (exec_sgAdvance s).trans (whenIdle_busy hbusy)

/-- Settles O16: the LFSR value is `forceOverride` of the old one, which the next advance does not read. -/
theorem sgForceWritesCell15 : Obligations.SgForceWritesCell15 := by
  refine ⟨decode_encode (.sgForce false), decode_encode (.sgForce true), fun b s =>
    ⟨fun hidle => ?_, fun hidle => exec_sgForce_of_cell_out hidle, fun hbusy => ?_⟩, by decide⟩
  · exact ⟨forceOverride b s.regs.lfsr, exec_sgForce_idle hidle b, forceOverride_cell_out _ _,
      fun _ hi => forceOverride_cell_of_lt _ _ hi, (expected_eq _).trans (forceOverride_cell_out _ _),
      exec_sgAdvance_after_override hidle b⟩
  · exact (exec_sgForce s b).trans (whenIdle_busy hbusy)

end Sys2Proof.Machine
end

section
/-! PROOFS. The family of 41_bit_sampler.md: a wait holds for as long as the logical clock does (R123, R125, R127). -/

namespace Sys2Proof.Machine

/-- The level each wait waits for is absent, so the poll step holds: lc = 0 in a rise wait, lc = 1 in a fall wait. -/
theorem poll_hold {p : Ports} {r : Regs}
    (h : ((r.phase = .syncWaitRise ∨ r.phase = .countWaitRise) ∧ p.clk = r.clkPol) ∨
      ((r.phase = .syncWaitFall ∨ r.phase = .countWaitFall) ∧ p.clk ≠ r.clkPol)) : poll p r = r := by
  rcases h with ⟨hrise, hclk⟩ | ⟨hfall, hclk⟩
  · exact poll_rise_hold hrise ((logicalClock_false_iff p r).2 hclk)
  · exact poll_fall_hold hfall ((logicalClock_iff p r).2 hclk)

/-- Poll steps each of which holds leave the registers together. Unlike in `runOn_hold`, their other ports may differ from
step to step. -/
theorem runOn_polls_hold {ps : List Ports} {s : State} (hs : s.rstSeen = true)
    (hpoll : ∀ p ∈ ps, p.rst = false ∧ p.cmd = 0x00) (hhold : ∀ p ∈ ps, poll p s.regs = s.regs) :
    ∃ t, runOn ps s = .next t ∧ t.regs = s.regs := by
  induction ps generalizing s with
  | nil => exact ⟨s, runOn_nil s, rfl⟩
  | cons p ps ih =>
    rw [List.forall_mem_cons] at hpoll hhold
    obtain ⟨⟨hrst, hcmd⟩, hpolls⟩ := hpoll
    obtain ⟨hfirst, hrest⟩ := hhold
    have hstep := stepOn_poll hs hrst hcmd
    rw [hfirst] at hstep
    rw [runOn_cons_next hstep]
    simpa using ih (s := nextInputs ((s.setPorts p).setRegs s.regs)) (by simpa using hs) hpolls (by simpa using hrest)

/-- Outside IDLE only three kinds of step answer: a reset, an ABORT and a poll step (R75, R160). -/
theorem step_busy_cases {s t : State} (h : step s = .next t) (hbusy : s.regs.phase ≠ .idle) :
    s.ports.rst = true ∨ s.ports.cmd = 0x20 ∨ PollStep s := by
  rcases step_next_cases h with ⟨hrst, -⟩ | ⟨hrst, hs, i, u, hd, he, -⟩
  · exact .inl hrst
  · have hword : encode i = s.ports.cmd := encode_of_decode hd
    by_cases hnop : i = .nop
    · subst hnop; exact .inr (.inr ⟨hrst, hs, hword.symm⟩)
    by_cases habort : i = .abort
    · subst habort; exact .inr (.inl hword.symm)
    obtain ⟨effect, heffect⟩ := exec_eq_whenIdle hnop habort s
    rw [heffect, whenIdle_busy hbusy] at he
    cases he

/-- Settles O23: a poll step that holds leaves the registers, any number of times; and outside IDLE a step that changes them
and is neither a reset nor an ABORT is a poll step, which holds here. -/
theorem waitsHoldWithoutBound : Obligations.WaitsHoldWithoutBound := by
  refine ⟨fun ps s hs hpoll hwait => ?holds, fun p s t _ hwait hstep hchange => ?ends⟩
  case holds =>
    exact runOn_polls_hold hs hpoll fun p hp => poll_hold (hwait.imp (And.imp_right (· p hp)) (And.imp_right (· p hp)))
  case ends =>
    have hbusy : s.regs.phase ≠ .idle := by
      rcases hwait with ⟨hp | hp, -⟩ | ⟨hp | hp, -⟩ <;> simp [hp]
    rcases step_busy_cases hstep hbusy with hrst | habort | hpoll
    · exact .inl hrst
    · exact .inr habort
    · exact absurd ((step_regs_of_pollStep hstep hpoll).trans (poll_hold hwait)) hchange

end Sys2Proof.Machine
end

section
/-! PROOFS. The family of 42_sync_engine.md: what a SYNC-BIT and a SYNC-FALL write, each as a whole register record. -/

namespace Sys2Proof.Machine

/-! ### SYNC-BIT -/

/-- R102's arithmetic form of the advance: the shift leaves cell[0] clear, and the OR writes the feedback there. -/
theorem advance_eq_shiftedIn (l : Lfsr) : advance l = shiftedIn l := by
  refine lfsr_ext fun i hi => ?_
  unfold shiftedIn
  cases i with
  | zero =>
    rw [advance_cell_zero, feedback_eq]
    split <;> rename_i h <;> simpa using h
  | succ i =>
    rw [advance_cell_succ l i (Nat.lt_of_succ_lt_succ hi)]
    have hi' : i < 16 := Nat.lt_of_succ_lt hi
    split <;> simp [hi, BitVec.getLsbD_eq_getElem hi']

/-- A register record is its eleven fields, so lemmas about single registers give an equation of records. -/
theorem Regs.eta (r : Regs) : r = ⟨r.lfsr, r.matchCnt, r.errBits, r.countBits, r.phase, r.lock, r.result, r.clkPol,
    r.dataPol, r.lenIdx, r.thresh⟩ := rfl

/-- SYNC-BIT writes four registers; the override of a mismatch is gone after the advance (R141, R146). -/
theorem syncBit_eq (bit : Bool) (r : Regs) : syncBit bit r =
    { r with
      matchCnt := (syncBit bit r).matchCnt, lfsr := advance r.lfsr,
      lock := r.lock || (syncBit bit r).matchCnt == r.thresh, phase := .syncWaitFall } := by
  rw [← syncBit_lock]
  refine (Regs.eta (syncBit bit r)).trans ?_
  simp only [syncBit_lfsr, syncBit_errBits, syncBit_countBits, syncBit_phase, syncBit_result, syncBit_clkPol,
    syncBit_dataPol, syncBit_lenIdx, syncBit_thresh]

/-- The poll step with lc = 1 in SYNC_WAIT_RISE is SYNC-BIT on DATA_IN XOR DATA_POL. -/
theorem exec_nop_syncBit {s : State} (hp : s.regs.phase = .syncWaitRise) (hclk : s.ports.clk ≠ s.regs.clkPol) :
    exec .nop s = .next (s.setRegs (syncBit (s.ports.data != s.regs.dataPol) s.regs)) := by
  rw [exec_nop, poll_syncBit hp ((logicalClock_iff _ _).2 hclk), sampledBit_eq]

/-- Settles O27: on a match the count is below THRESH before the addition (R149), and on a mismatch it is 0, which no THRESH
of a running measurement is. -/
theorem syncBitAction : Obligations.SyncBitAction := by
  intro s hp hclk
  rw [exec_nop_syncBit hp hclk, syncBit_eq, syncBit_matchCnt, peek_eq]
  by_cases hbit : (s.ports.data != s.regs.dataPol) = s.regs.lfsr.getLsbD 15
  · refine ⟨s.regs.matchCnt + 1, s.regs.lfsr, fun _ => ⟨rfl, rfl⟩, fun hne => absurd hbit hne,
      fun hinv => ⟨?bound, fun hne => absurd hbit hne⟩, ?record⟩
    case bound =>
      have hlt := hinv.match_lt hp
      have hth := Thresh.toNat_lt s.regs.thresh
      exact (Count.toNat_add_one (by omega)).trans_le hlt
    case record => rw [if_pos hbit, advance_eq_shiftedIn]; rfl
  · refine ⟨0, forceOverride (!s.regs.lfsr.getLsbD 15) s.regs.lfsr, fun heq => absurd heq hbit, fun _ => ⟨rfl, rfl⟩,
      fun hinv => ⟨Nat.zero_le _, fun _ => ?neverLocks⟩, ?record⟩
    case neverLocks => exact (Thresh.ne_zero_iff.2 (hinv.thresh_pos (by simp [hp]))).symm
    case record => rw [if_neg hbit, ← advance_eq_shiftedIn, advance_forceOverride]; rfl

/-! ### SYNC-FALL -/

/-- The poll step with lc = 0 in SYNC_WAIT_FALL writes PHASE only, by LOCK. -/
theorem exec_nop_syncFall {s : State} (hp : s.regs.phase = .syncWaitFall) (hclk : s.ports.clk = s.regs.clkPol) :
    exec .nop s = .next (s.setRegs (s.regs.setPhase (if s.regs.lock then .countWaitRise else .syncWaitRise))) := by
  rw [exec_nop, poll_syncFall hp ((logicalClock_false_iff _ _).2 hclk), syncFall]

/-- Settles O29: PHASE follows LOCK, and the window counters are those of the sync phase. -/
theorem syncFallAction : Obligations.SyncFallAction := by
  intro s hp hclk
  rw [exec_nop_syncFall hp hclk]
  refine ⟨fun hlock => ?locked, fun hlock => ?locking, fun hinv => (hinv.sync_counters (.inr hp)).symm⟩
  case locked => rw [if_pos hlock]; rfl
  case locking => rw [if_neg (Bool.eq_false_iff.1 hlock)]; rfl

end Sys2Proof.Machine
end

section
/-! PROOFS. The family of 43_measurement_controller.md: what COUNT-BIT, COUNT-FALL, MEASURE, ABORT and NOP write, the step
case by case, and that the counters of a completed measurement stand. -/

namespace Sys2Proof.Machine

/-! ### COUNT-BIT and COUNT-FALL -/

/-- COUNT-BIT writes four registers, the LFSR with no override (R164). -/
theorem countBit_eq (bit : Bool) (r : Regs) : countBit bit r =
    { r with
      errBits := (countBit bit r).errBits, lfsr := advance r.lfsr, countBits := r.countBits + 1,
      phase := .countWaitFall } := by
  refine (Regs.eta (countBit bit r)).trans ?_
  simp only [countBit_lfsr, countBit_matchCnt, countBit_countBits, countBit_phase, countBit_lock, countBit_result,
    countBit_clkPol, countBit_dataPol, countBit_lenIdx, countBit_thresh]

/-- COUNT-FALL at TOTAL completes the measurement. -/
theorem countFall_of_full {r : Regs} (h : r.countBits = total r) : countFall r = endMeasurement .complete r :=
  if_pos (beq_iff_eq.2 h)

/-- COUNT-FALL before TOTAL waits for the next bit. -/
theorem countFall_of_not_full {r : Regs} (h : r.countBits ≠ total r) : countFall r = r.setPhase .countWaitRise :=
  if_neg (mt beq_iff_eq.1 h)

/-! ### The poll step, by the levels of the two lines -/

section
variable {p : Ports} {r : Regs}

theorem poll_syncBit_of_clk (hp : r.phase = .syncWaitRise) (hclk : p.clk ≠ r.clkPol) :
    poll p r = syncBit (p.data != r.dataPol) r := by
  rw [poll_syncBit hp ((logicalClock_iff _ _).2 hclk), sampledBit_eq]

theorem poll_countBit_of_clk (hp : r.phase = .countWaitRise) (hclk : p.clk ≠ r.clkPol) :
    poll p r = countBit (p.data != r.dataPol) r := by
  rw [poll_countBit hp ((logicalClock_iff _ _).2 hclk), sampledBit_eq]

theorem poll_syncFall_of_clk (hp : r.phase = .syncWaitFall) (hclk : p.clk = r.clkPol) : poll p r = syncFall r :=
  poll_syncFall hp ((logicalClock_false_iff _ _).2 hclk)

theorem poll_countFall_of_clk (hp : r.phase = .countWaitFall) (hclk : p.clk = r.clkPol) : poll p r = countFall r :=
  poll_countFall hp ((logicalClock_false_iff _ _).2 hclk)

end

/-- Settles O37: the registers are those of `countBit`, whose error count turns on the sampled bit alone. -/
theorem countBitAction : Obligations.CountBitAction := by
  intro s hp hclk
  refine ⟨(countBit (s.ports.data != s.regs.dataPol) s.regs).errBits, fun heq => ?agrees, fun hne => ?differs, ?record⟩
  case agrees => rw [countBit_errBits, peek_eq, if_pos heq]
  case differs => rw [countBit_errBits, peek_eq, if_neg hne]
  case record =>
    rw [exec_nop, poll_countBit_of_clk hp hclk, countBit_eq, advance_eq_shiftedIn]
    rfl

/-- Settles O38: the two branches of `countFall`, each a whole register record. -/
theorem countFallAction : Obligations.CountFallAction := by
  intro s hp hclk
  rw [exec_nop, poll_countFall_of_clk hp hclk]
  refine ⟨fun hfull => ?completes, fun hshort => ?goesOn⟩
  case completes => rw [countFall_of_full hfull]; rfl
  case goesOn => rw [countFall_of_not_full hshort]; rfl

/-! ### NOP and ABORT -/

theorem exec_nop_idle {s : State} (h : s.regs.phase = .idle) : exec .nop s = .next s := by
  rw [exec_nop, poll_idle h]
  rfl

/-- Settles O35: NOP answers the poll's registers, and in IDLE the poll leaves them. -/
theorem nopChangesNothingInIdle : Obligations.NopChangesNothingInIdle :=
  ⟨decode_encode .nop, fun s => ⟨⟨_, exec_nop s⟩, exec_nop_idle⟩⟩

/-- Settles O40: ABORT is `endMeasurement` while busy, and the identity in IDLE. -/
theorem abortEndsTheMeasurement : Obligations.AbortEndsTheMeasurement :=
  ⟨decode_encode .abort, fun _ => ⟨exec_abort_busy, exec_abort_idle⟩⟩

/-! ### MEASURE -/

theorem lenIdxInvalid_false_iff (p : Ports) : lenIdxInvalid p = false ↔ p.cfgLenIdx.toNat ≤ 5 := by
  rw [Bool.eq_false_iff, Ne, lenIdxInvalid_iff, Nat.not_lt]

theorem threshInvalid_false_iff (p : Ports) : threshInvalid p = false ↔ p.cfgThresh ≠ 0 := by
  rw [Bool.eq_false_iff, Ne, threshInvalid_iff]

section
variable {p : Ports} {r : Regs}

theorem measureEffect_of_valid (hi : p.cfgLenIdx.toNat ≤ 5) (hth : p.cfgThresh ≠ 0) :
    measureEffect p r = startMeasurement p r := by
  simp [measureEffect, (lenIdxInvalid_false_iff p).2 hi, (threshInvalid_false_iff p).2 hth]

theorem measureEffect_of_invalid_index (hi : 5 < p.cfgLenIdx.toNat) :
    measureEffect p r = r.setResult .invalidLenIdx := by
  simp [measureEffect, invalidConfiguration, (lenIdxInvalid_iff p).2 hi]

theorem measureEffect_of_zero_thresh (hi : p.cfgLenIdx.toNat ≤ 5) (hth : p.cfgThresh = 0) :
    measureEffect p r = r.setResult .invalidThresh := by
  simp [measureEffect, invalidConfiguration, (lenIdxInvalid_false_iff p).2 hi, (threshInvalid_iff p).2 hth]

end

theorem exec_measure_idle {s : State} (h : s.regs.phase = .idle) :
    exec .measure s = .next (s.setRegs (measureEffect s.ports s.regs)) :=
  (exec_measure_eq_whenIdle s).trans (whenIdle_idle h)

/-- Settles O36: in IDLE MEASURE is `measureEffect`, which tests the index before the threshold. -/
theorem measureStartsOrRejects : Obligations.MeasureStartsOrRejects := by
  refine ⟨decode_encode .measure, fun s => ⟨fun hidle hi hth => ?valid, fun hidle hi => ?invalidIndex,
    fun hidle hi hth => ?zeroThresh, fun hbusy => (exec_measure s).trans (whenIdle_busy hbusy)⟩⟩
  case valid => rw [exec_measure_idle hidle, measureEffect_of_valid hi hth, startMeasurement_eq]; rfl
  case invalidIndex => rw [exec_measure_idle hidle, measureEffect_of_invalid_index hi]; rfl
  case zeroThresh => rw [exec_measure_idle hidle, measureEffect_of_zero_thresh hi hth]; rfl

/-! ### The step, case by case -/

/-! The three checks of R74 on a word, as statements about its fields. -/

theorem opDefined_ofWord_iff (w : CmdWord) : (CommandFields.ofWord w).opDefined = true ↔ (opField w).toNat ≤ 5 :=
  decide_eq_true_iff

theorem reservedClear_ofWord_iff (w : CmdWord) : (CommandFields.ofWord w).reservedClear = true ↔ rsvField w = 0 :=
  beq_iff_eq

theorem operandPlaced_ofWord_iff (w : CmdWord) :
    (CommandFields.ofWord w).operandPlaced = true ↔ (operandField w = true → (opField w).toNat = 5) := by
  have hforce : opField w = 5 ↔ (opField w).toNat = 5 := BitVec.toNat_inj.symm
  rw [← hforce, fields_ofWord, CommandFields.operandPlaced]
  cases operandField w <;> simp

/-- The legal words are those that decode (R74). -/
theorem wf_ofWord_iff (w : CmdWord) : (CommandFields.ofWord w).wf = true ↔ ∃ i, decode w = .ok i := by
  simp only [decode_ok_iff_fields, exists_and_left, exists_command_iff]
  rw [CommandFields.wf, Bool.and_eq_true, Bool.and_eq_true, opDefined_ofWord_iff, reservedClear_ofWord_iff,
    operandPlaced_ofWord_iff, and_comm (a := (opField w).toNat ≤ 5), and_assoc]

/-- The words that are refused while busy are those of the commands other than NOP and ABORT (R75). -/
theorem exists_command_of_mem_idleWords {w : CmdWord} (h : w ∈ ([0x10, 0x30, 0x40, 0x50, 0x51] : List CmdWord)) :
    ∃ i, w = encode i ∧ i ≠ .nop ∧ i ≠ .abort := by
  have hwords : ([0x10, 0x30, 0x40, 0x50, 0x51] : List CmdWord) =
      [.measure, .sgReset, .sgAdvance, .sgForce false, .sgForce true].map encode := rfl
  rw [hwords, List.mem_map] at h
  obtain ⟨i, hi, rfl⟩ := h
  refine ⟨i, rfl, ?_, ?_⟩ <;> rintro rfl <;> simp at hi

section
variable {s : State} (hr : s.ports.rst = false) (hs : s.rstSeen = true)
include hr hs

/-- A step whose command answers leaves that command's registers. -/
theorem exists_step_of_exec {i : Instr} {u : State} (hcmd : s.ports.cmd = encode i) (he : exec i s = .next u) :
    ∃ t, step s = .next t ∧ t.regs = u.regs := by
  refine ⟨nextInputs u, ?_, nextInputs_regs u⟩
  rw [step_of_command hr hs (hcmd ▸ decode_encode i), he, thenNextInputs_next]

theorem step_of_illegal_word (h : (CommandFields.ofWord s.ports.cmd).wf = false) :
    step s = .refused .illegalCommand := by
  cases hd : decode s.ports.cmd with
  | error e => exact step_of_illegal hr hs hd
  | ok i => rw [(wf_ofWord_iff _).2 ⟨i, hd⟩] at h; cases h

theorem step_of_idleWord_busy (hbusy : s.regs.phase ≠ .idle)
    (h : s.ports.cmd ∈ ([0x10, 0x30, 0x40, 0x50, 0x51] : List CmdWord)) : step s = .refused .commandWhileBusy := by
  obtain ⟨i, hcmd, hnop, habort⟩ := exists_command_of_mem_idleWords h
  obtain ⟨effect, heffect⟩ := exec_eq_whenIdle hnop habort s
  rw [step_of_command hr hs (hcmd ▸ decode_encode i), heffect, whenIdle_busy hbusy, thenNextInputs_refused]

end

/-- Settles O8: each case is the step's refusal, or the registers of the command or poll action that the word, PHASE and the
logical clock select. -/
theorem stepTransitionTable : Obligations.StepTransitionTable := by
  intro s
  refine ⟨fun hrst => ?reset, step_of_not_rstSeen, fun hr hs => ⟨step_of_illegal_word hr hs, fun hcmd => ?abort,
    step_of_idleWord_busy hr hs, fun hidle => ⟨fun hcmd => ?measure, fun hcmd => ?sgReset, fun hcmd => ?sgAdvance,
    fun hcmd => ?sgForce0, fun hcmd => ?sgForce1⟩, fun hcmd => ?poll⟩⟩
  case reset =>
    obtain ⟨t, ht, hseen, hregs⟩ := exists_step_of_rst hrst
    exact ⟨t, ht, hregs, hseen⟩
  case abort =>
    obtain ⟨t, ht, hregs⟩ := exists_step_of_exec (i := .abort) hr hs hcmd (exec_abort s)
    refine ⟨t, ht, fun hbusy => ?_, fun hidle => ?_⟩
    · rw [hregs, (busy_iff _).2 hbusy]; rfl
    · rw [hregs, (busy_false_iff _).2 hidle]; rfl
  case measure =>
    obtain ⟨t, ht, hregs⟩ := exists_step_of_exec (i := .measure) hr hs hcmd (exec_measure_idle hidle)
    refine ⟨t, ht, ?_⟩
    rw [hregs, exec_measure_idle hidle]
    rfl
  case sgReset => exact exists_step_of_exec (i := .sgReset) hr hs hcmd (exec_sgReset_idle hidle)
  case sgAdvance => exact exists_step_of_exec (i := .sgAdvance) hr hs hcmd (exec_sgAdvance_idle hidle)
  case sgForce0 => exact exists_step_of_exec (i := .sgForce false) hr hs hcmd (exec_sgForce_idle hidle false)
  case sgForce1 => exact exists_step_of_exec (i := .sgForce true) hr hs hcmd (exec_sgForce_idle hidle true)
  case poll =>
    obtain ⟨t, ht, hregs⟩ := exists_step_of_exec (i := .nop) hr hs hcmd (exec_nop s)
    rw [State.setRegs_regs] at hregs
    refine ⟨t, ht, ?_⟩
    rw [hregs]
    exact ⟨poll_idle, poll_syncBit_of_clk, poll_syncFall_of_clk, poll_countBit_of_clk, poll_countFall_of_clk,
      fun hp hclk => poll_hold (.inl ⟨hp, hclk⟩), fun hp hclk => poll_hold (.inr ⟨hp, hclk⟩)⟩

/-! ### The counters of a completed measurement -/

/-- What every step keeps that presents one of `ps` holds at the end of the run over `ps`. -/
theorem runOn_induction_of_mem {P : State → Prop} {ps : List Ports}
    (hstep : ∀ p ∈ ps, ∀ s t, P s → stepOn p s = .next t → P t) {s t : State} (h0 : P s)
    (h : runOn ps s = .next t) : P t := by
  induction ps generalizing s with
  | nil => cases h; exact h0
  | cons p ps ih =>
    rw [List.forall_mem_cons] at hstep
    obtain ⟨hfirst, hrest⟩ := hstep
    cases hp : stepOn p s with
    | next u => rw [runOn_cons_next hp] at h; exact ih hrest (hfirst s u h0 hp) h
    | fault f => cases f
    | refused r => simp [runOn, hp] at h

/-- Only a valid MEASURE leaves IDLE (R37). -/
theorem step_idle_phase {s t : State} (h : step s = .next t) (hidle : s.regs.phase = .idle)
    (hm : ¬ StartsMeasurement s) : t.regs.phase = .idle := by
  cases (step_effect h).1 with
  | reset _ ht => rw [ht]; rfl
  | measure hr hc hp hi hth _ => exact absurd ⟨⟨hr, hc, hi, hth⟩, hp⟩ hm
  | _ => simp_all

/-- The core is idle, with the window counters of `r`. -/
def IdleWithWindow (r : Regs) (u : State) : Prop :=
  u.regs.phase = .idle ∧ u.regs.errBits = r.errBits ∧ u.regs.countBits = r.countBits

/-- In IDLE no bit is counted, so only RST and a valid MEASURE write the window (R24, R25, R166). -/
theorem stepOn_keeps_idleWithWindow {r : Regs} {p : Ports} {u v : State} (hr : p.rst = false) (hm : ¬ ValidMeasure p)
    (hu : IdleWithWindow r u) (h : stepOn p u = .next v) : IdleWithWindow r v := by
  obtain ⟨hidle, herr, hcount⟩ := hu
  have hstart : ¬ StartsMeasurement (u.setPorts p) := fun hstart => hm hstart.1
  have htakes : ¬ TakesCountBit (u.setPorts p) := by
    rintro ⟨-, hp, -⟩
    rw [State.setPorts_regs, hidle] at hp
    cases hp
  obtain ⟨herr', hcount'⟩ := step_window_eq h hr hstart htakes
  exact ⟨step_idle_phase h hidle hstart, herr'.trans herr, hcount'.trans hcount⟩

/-- Settles O44: the invariant gives the count at completion, and the run keeps the core idle and its window. -/
theorem completedCountersStand : Obligations.CompletedCountersStand := by
  intro ps s t _ hinv hidle hcomplete hports hrun
  have hkept : IdleWithWindow s.regs t := by
    refine runOn_induction_of_mem (fun p hp u v hu hstep => ?_) ⟨hidle, rfl, rfl⟩ hrun
    obtain ⟨hr, hm⟩ := hports p hp
    exact stepOn_keeps_idleWithWindow hr hm hu hstep
  obtain ⟨-, herr, hcount⟩ := hkept
  exact ⟨hinv.complete_total hidle hcomplete, herr, hcount⟩

end Sys2Proof.Machine
end

section
/-! PROOFS. The family of 60_exceptions.md: what refuses a step (R206), and what writes each code of RESULT (R200). -/

namespace Sys2Proof.Machine

/-! ### The three refusals -/

/-- The kind of step that each refusal is given in (R206); `notModelled` is given in none. -/
def RefusalCause (s : State) : Refusal → Prop
  | .notModelled _ => False
  | .beforeReset => s.ports.rst = false ∧ s.rstSeen = false
  | .illegalCommand => s.ports.rst = false ∧ s.rstSeen = true ∧ (CommandFields.ofWord s.ports.cmd).wf = false
  | .commandWhileBusy => s.ports.rst = false ∧ s.rstSeen = true ∧ s.regs.phase ≠ .idle ∧
      s.ports.cmd ∈ ([0x10, 0x30, 0x40, 0x50, 0x51] : List CmdWord)

/-- The converse of `exists_command_of_mem_idleWords`. -/
theorem encode_mem_idleWords {i : Instr} (hnop : i ≠ .nop) (habort : i ≠ .abort) :
    encode i ∈ ([0x10, 0x30, 0x40, 0x50, 0x51] : List CmdWord) := by
  cases i with
  | nop => exact absurd rfl hnop
  | abort => exact absurd rfl habort
  | sgForce b => cases b <;> decide
  | _ => decide

section
variable {s t : State}

theorem step_of_refusalCause {r : Refusal} (h : RefusalCause s r) : step s = .refused r := by
  cases r with
  | notModelled _ => exact h.elim
  | beforeReset => obtain ⟨hr, hs⟩ := h; exact step_of_not_rstSeen hr hs
  | illegalCommand => obtain ⟨hr, hs, hillegal⟩ := h; exact step_of_illegal_word hr hs hillegal
  | commandWhileBusy => obtain ⟨hr, hs, hbusy, hcmd⟩ := h; exact step_of_idleWord_busy hr hs hbusy hcmd

/-- A step in which the host breaks its duty is one of the three kinds (R239). -/
theorem hostObeys_or_refusalCause (s : State) : HostObeys s ∨ ∃ r, RefusalCause s r := by
  cases hr : s.ports.rst with
  | true => exact .inl (.inl hr)
  | false =>
    cases hs : s.rstSeen with
    | false => exact .inr ⟨.beforeReset, hr, hs⟩
    | true =>
      cases hwf : (CommandFields.ofWord s.ports.cmd).wf with
      | false => exact .inr ⟨.illegalCommand, hr, hs, hwf⟩
      | true =>
        obtain ⟨i, hd⟩ := (wf_ofWord_iff _).1 hwf
        have hcmd : encode i = s.ports.cmd := encode_of_decode hd
        by_cases hidle : s.regs.phase = .idle
        · exact .inl (.inr ⟨hs, hwf, fun hbusy => absurd hidle ((busy_iff _).1 hbusy)⟩)
        by_cases hnop : i = .nop
        · subst hnop; exact .inl (.inr ⟨hs, hwf, fun _ => .inl hcmd.symm⟩)
        by_cases habort : i = .abort
        · subst habort; exact .inl (.inr ⟨hs, hwf, fun _ => .inr hcmd.symm⟩)
        exact .inr ⟨.commandWhileBusy, hr, hs, hidle, hcmd ▸ encode_mem_idleWords hnop habort⟩

/-- A step in which the host keeps its duty answers. -/
theorem exists_step_of_hostObeys (h : HostObeys s) : ∃ t, step s = .next t := by
  cases hr : s.ports.rst with
  | true => exact ⟨_, step_of_rst hr⟩
  | false =>
    rcases h with hr' | ⟨hs, hwf, hbusy⟩
    · rw [hr] at hr'; cases hr'
    obtain ⟨i, hd⟩ := (wf_ofWord_iff _).1 hwf
    have hexec : ∃ u, exec i s = .next u := by
      by_cases hidle : s.regs.phase = .idle
      · exact exec_idle_next hidle i
      have hi : i = .nop ∨ i = .abort := by
        rcases hbusy ((busy_iff _).2 hidle) with hcmd | hcmd
        · rw [hcmd] at hd; cases (decode_encode .nop).symm.trans hd; exact .inl rfl
        · rw [hcmd] at hd; cases (decode_encode .abort).symm.trans hd; exact .inr rfl
      exact exec_nop_or_abort_next hi s
    obtain ⟨u, hu⟩ := hexec
    exact ⟨nextInputs u, by rw [step_of_command hr hs hd, hu, thenNextInputs_next]⟩

theorem step_refused_iff {r : Refusal} : step s = .refused r ↔ RefusalCause s r := by
  refine ⟨fun h => ?_, step_of_refusalCause⟩
  rcases hostObeys_or_refusalCause s with hobeys | ⟨r', hcause⟩
  · obtain ⟨t, ht⟩ := exists_step_of_hostObeys hobeys
    cases ht.symm.trans h
  · cases (step_of_refusalCause hcause).symm.trans h
    exact hcause

theorem exists_step_iff_hostObeys : (∃ t, step s = .next t) ↔ HostObeys s := by
  refine ⟨fun ⟨t, ht⟩ => ?_, exists_step_of_hostObeys⟩
  refine (hostObeys_or_refusalCause s).resolve_right fun ⟨r, hcause⟩ => ?_
  cases (step_of_refusalCause hcause).symm.trans ht

end

/-- Settles O53: a step is refused exactly for its cause, one of which stands whenever the host breaks its duty; and a
refusal ends the run. -/
theorem refusalsAreExactlyTheThreeKinds : Obligations.RefusalsAreExactlyTheThreeKinds :=
  ⟨fun _ => ⟨step_refused_iff, step_refused_iff, step_refused_iff, exists_step_iff_hostObeys⟩,
    fun _ qs _ _ h => runOn_append_refused h qs⟩

/-! ### The codes of RESULT -/

/-- The one cause of each code of RESULT (R200). -/
def ResultCause (s : State) : Result → Prop
  | .none => s.ports.rst = true ∨ StartsMeasurement s
  | .complete => Completes s
  | .aborted => s.ports.rst = false ∧ s.ports.cmd = 0x20 ∧ s.regs.phase ≠ .idle
  | .invalidLenIdx =>
      s.ports.rst = false ∧ s.ports.cmd = 0x10 ∧ s.regs.phase = .idle ∧ s.ports.cfgLenIdx ∈ ([6, 7] : List LenIdx)
  | .invalidThresh =>
      s.ports.rst = false ∧ s.ports.cmd = 0x10 ∧ s.regs.phase = .idle ∧ s.ports.cfgLenIdx.toNat ≤ 5 ∧
        s.ports.cfgThresh = 0

/-- The indexes that LEN_TABLE has no entry for (R163). -/
theorem mem_invalidIndexes_iff (i : LenIdx) : i ∈ ([6, 7] : List LenIdx) ↔ 5 < i.toNat := by
  revert i; decide

section
variable {s t : State}

/-- A step that runs a command ends in that command's registers. -/
theorem step_regs_of_exec (h : step s = .next t) {i : Instr} {u : State} (hr : s.ports.rst = false)
    (hcmd : s.ports.cmd = encode i) (he : exec i s = .next u) : t.regs = u.regs := by
  obtain ⟨t', ht', hregs⟩ := exists_step_of_exec hr (rstSeen_of_step h hr) hcmd he
  cases ht'.symm.trans h
  exact hregs

theorem step_regs_of_completes (h : step s = .next t) (hc : Completes s) :
    t.regs = endMeasurement .complete s.regs := by
  obtain ⟨hpoll, hp, hclk, hfull⟩ := hc
  rw [step_regs_of_pollStep h hpoll, poll_countFall_of_clk hp hclk, countFall_of_full hfull]

theorem step_regs_of_measure (h : step s = .next t) (hr : s.ports.rst = false) (hcmd : s.ports.cmd = 0x10)
    (hidle : s.regs.phase = .idle) : t.regs = measureEffect s.ports s.regs :=
  step_regs_of_exec h (i := .measure) hr hcmd (exec_measure_idle hidle)

/-- Each cause writes its code. -/
theorem step_result_of_cause (h : step s = .next t) {c : Result} (hc : ResultCause s c) : t.regs.result = c := by
  cases c with
  | none =>
    rcases hc with hr | hm
    · rw [step_regs_of_rst h hr]; rfl
    · rw [step_regs_of_startsMeasurement h hm, startMeasurement_result]
  | complete => rw [step_regs_of_completes h hc, endMeasurement_result]
  | aborted =>
    obtain ⟨hr, hcmd, hbusy⟩ := hc
    rw [step_regs_of_exec h (i := .abort) hr hcmd (exec_abort_busy hbusy)]; rfl
  | invalidLenIdx =>
    obtain ⟨hr, hcmd, hidle, hi⟩ := hc
    rw [step_regs_of_measure h hr hcmd hidle, measureEffect_of_invalid_index ((mem_invalidIndexes_iff _).1 hi)]; rfl
  | invalidThresh =>
    obtain ⟨hr, hcmd, hidle, hi, hth⟩ := hc
    rw [step_regs_of_measure h hr hcmd hidle, measureEffect_of_zero_thresh hi hth]; rfl

/-- A step leaves RESULT, or it is of the kind that causes the code it writes. -/
theorem step_result_eq_or_cause (h : step s = .next t) :
    t.regs.result = s.regs.result ∨ ResultCause s t.regs.result := by
  cases (step_effect h).1 with
  | reset hr ht => rw [ht]; exact .inr (.inl hr)
  | measure hr hc hp hi hth ht => rw [ht]; exact .inr (.inr ⟨⟨hr, hc, hi, hth⟩, hp⟩)
  | countFall hr hc hp hl ht =>
    rw [ht]
    by_cases hfull : s.regs.countBits = total s.regs
    · rw [countFall_of_full hfull]; exact .inr ⟨⟨hr, rstSeen_of_step h hr, hc⟩, hp, hl, hfull⟩
    · rw [countFall_of_not_full hfull]; exact .inl rfl
  | abortBusy hr hc hp ht => rw [ht]; exact .inr ⟨hr, hc, hp⟩
  | invalidIndex hr hc hp hi ht => rw [ht]; exact .inr ⟨hr, hc, hp, (mem_invalidIndexes_iff _).2 hi⟩
  | invalidThreshold hr hc hp hi hth ht => rw [ht]; exact .inr ⟨hr, hc, hp, hi, hth⟩
  | _ => left; simp [*]

end

/-- Settles O52: each cause writes its code, and a step that changes RESULT is of the cause of the code it leaves. -/
theorem resultCodesHaveOneCauseEach : Obligations.ResultCodesHaveOneCauseEach := by
  refine ⟨rfl, rfl, rfl, rfl, rfl, fun s t h => ?_⟩
  have hwrites (c : Result) : ResultCause s c → t.regs.result = c := step_result_of_cause h
  refine ⟨hwrites .none, hwrites .complete, fun hr hc hp => hwrites .aborted ⟨hr, hc, hp⟩,
    fun hr hc hp => ⟨fun hi => hwrites .invalidLenIdx ⟨hr, hc, hp, hi⟩,
      fun hi hth => hwrites .invalidThresh ⟨hr, hc, hp, hi, hth⟩⟩, fun hchange => ?_⟩
  have hcause (c : Result) (hcode : t.regs.result = c) : ResultCause s c :=
    hcode ▸ (step_result_eq_or_cause h).resolve_left hchange
  exact ⟨hcause .none, hcause .complete, hcause .aborted, hcause .invalidLenIdx, hcause .invalidThresh⟩

end Sys2Proof.Machine
end

section
/-! PROOFS. The family of 70_reset_and_hazards.md: the steps between power-up and the first reset (R231). -/

namespace Sys2Proof.Machine

/-! ### Before the first reset -/

@[simp] theorem State.powerUp_regs (r : Regs) (p : Ports) (ps : List Ports) : (State.powerUp r p ps).regs = r := rfl

@[simp] theorem State.powerUp_rstSeen (r : Regs) (p : Ports) (ps : List Ports) :
    (State.powerUp r p ps).rstSeen = false := rfl

/-- Settles O11: power-up leaves the registers free and no reset seen; from there RST alone decides between the refusal and
the reset step, which answers from any state. -/
theorem noStepBeforeTheFirstReset : Obligations.NoStepBeforeTheFirstReset := by
  refine ⟨fun r p ps => ?powerUp, fun s hs => ⟨fun hr => ?refused, fun hr => ?reset⟩⟩
  case powerUp => exact ⟨State.powerUp_regs r p ps, State.powerUp_rstSeen r p ps⟩
  case refused => exact step_of_not_rstSeen hr hs
  case reset => exact exists_step_of_rst hr

end Sys2Proof.Machine
end

section
/-! PROOFS. The sequence itself: the advance cell by cell, the states from the seed (R110), their recurrence (R113) and how
long the sequence agrees with itself at an offset (R148). -/

namespace Sys2Proof.Machine

/-! ### The advance and the override -/

/-- The first of any number of advances loses an override (R104). -/
theorem advances_succ_forceOverride (b : Bool) (l : Lfsr) (k : Nat) :
    advances (k + 1) (forceOverride b l) = advances (k + 1) l := by
  rw [advances, advances, advance_forceOverride]

/-- The shift of R102 as a number: the doubled value cut to 16 bits, and the feedback in the bit the doubling has freed. -/
theorem advance_toNat (l : Lfsr) : (advance l).toNat = 2 * l.toNat % 65536 + (feedback l).toNat := by
  have hlt : l.toNat % 2 ^ 15 < 2 ^ 15 := Nat.mod_lt _ (by decide)
  rw [advance, BitVec.toNat_append, BitVec.extractLsb'_toNat, BitVec.toNat_ofBool, Nat.shiftRight_zero,
    Nat.shiftLeft_eq, Nat.mul_comm, ← Nat.two_pow_add_eq_or_of_lt (Bool.toNat_lt _)]
  congr 1
  show 2 ^ 1 * (l.toNat % 2 ^ 15) = _
  omega

/-- Settles O13: cell by cell, as the shift of R102, and as a number. -/
theorem advanceShiftsTowardHigherIndex : Obligations.AdvanceShiftsTowardHigherIndex := fun l =>
  ⟨advance_cell_zero l, advance_cell_succ l, advance_eq_shiftedIn l, advance_toNat l⟩

/-- Settles O17: `advance` reads cells 0 to 14 only, and an override writes none of them. -/
theorem forcedCellNeverFeedsBack : Obligations.ForcedCellNeverFeedsBack := by
  refine ⟨fun l => ⟨advance_cell_zero l, fun j h1 h14 => ?shift⟩, fun l m h i _ => ?cells,
    fun b l => advance_forceOverride b l, fun b l k => ?expectedBits, fun l m h => advance_congr h⟩
  case shift =>
    obtain ⟨i, rfl⟩ := Nat.exists_eq_add_of_le' h1
    exact advance_cell_succ l i (by omega)
  case cells => rw [advance_congr h]
  case expectedBits => rw [advances_succ_forceOverride]

/-! ### The expected bits are the cells of a state -/

/-- A cell moves up one index an advance. -/
theorem seqState_add_cell (k n i : Nat) (h : i + n ≤ 15) :
    (seqState (k + n)).getLsbD (i + n) = (seqState k).getLsbD i := by
  induction n with
  | zero => rfl
  | succ n ih => rw [← Nat.add_assoc, ← Nat.add_assoc, seqState_succ, advance_cell_succ _ _ (by omega), ih (by omega)]

/-- Cell i of a state is the expected bit of 15 - i advances later. -/
theorem seqState_cell (k i : Nat) (h : i ≤ 15) : (seqState k).getLsbD i = seqBit (k + (15 - i)) := by
  have hcell := seqState_add_cell k (15 - i) i (by omega)
  rw [Nat.add_sub_cancel' h] at hcell
  rw [seqBit_eq, hcell]

/-- The bit an advance inserts at cell[0] is the expected bit of 16 advances later. -/
theorem feedback_seqState (k : Nat) : feedback (seqState k) = seqBit (k + 16) := by
  rw [← advance_cell_zero, ← seqState_succ, seqState_cell (k + 1) 0 (by decide), Nat.add_assoc]

/-- The recurrence of the expected bits (R113). -/
theorem seqBit_recurrence (k : Nat) : seqBit (k + 16) = (seqBit (k + 8) ^^ seqBit (k + 4)) := by
  rw [← feedback_seqState, feedback_eq, seqState_cell k 7 (by decide), seqState_cell k 11 (by decide)]

/-- The seed's cells come out first: sixteen 1s. -/
theorem seqBit_of_le {k : Nat} (h : k ≤ 15) : seqBit k = true := by
  have hseed : ∀ i, i < 16 → (seqState 0).getLsbD i = true := by decide
  have hcell := seqState_cell 0 (15 - k) (by omega)
  rw [Nat.sub_sub_self h, Nat.zero_add] at hcell
  rw [← hcell, hseed _ (by omega)]

/-- States with the same sixteen expected bits ahead are equal. -/
theorem seqState_eq_of_seqBit {j k : Nat} (h : ∀ i, i < 16 → seqBit (j + i) = seqBit (k + i)) :
    seqState j = seqState k :=
  lfsr_ext fun i hi => by
    rw [seqState_cell j i (by omega), seqState_cell k i (by omega), h _ (by omega)]

/-! ### The inserted bits (R113) -/

theorem insertedBit_of_nonpos {m : Int} (h : m ≤ 0) : insertedBit m = true := if_pos h

theorem insertedBit_succ (k : Nat) : insertedBit ((k : Int) + 1) = feedback (seqState k) := by
  have hk : ((k : Int) + 1).toNat - 1 = k := by omega
  rw [insertedBit, if_neg (by omega), hk]

/-- The expected bit after k advances is the bit that advance number k - 15 inserted. -/
theorem seqBit_eq_insertedBit (k : Nat) : seqBit k = insertedBit ((k : Int) - 15) := by
  rcases Nat.lt_or_ge 15 k with h | h
  · obtain ⟨j, rfl⟩ := Nat.exists_eq_add_of_le' h
    have hj : ((j + 16 : Nat) : Int) - 15 = (j : Int) + 1 := by omega
    rw [hj, insertedBit_succ, feedback_seqState]
  · rw [seqBit_of_le h, insertedBit_of_nonpos (by omega)]

theorem insertedBit_recurrence {m : Int} (h : 1 ≤ m) :
    insertedBit m = (insertedBit (m - 8) != insertedBit (m - 12)) := by
  obtain ⟨k, rfl⟩ : ∃ k : Nat, m = (k : Int) + 1 := ⟨(m - 1).toNat, by omega⟩
  have h8 : (k : Int) + 1 - 8 = ((k + 8 : Nat) : Int) - 15 := by omega
  have h12 : (k : Int) + 1 - 12 = ((k + 4 : Nat) : Int) - 15 := by omega
  rw [h8, h12, ← seqBit_eq_insertedBit, ← seqBit_eq_insertedBit, insertedBit_succ, feedback_seqState, seqBit_recurrence]

/-- In characteristic 2 a fourth power is taken term by term. -/
theorem characteristicPolynomial_eq_pow : (Polynomial.X ^ 12 + Polynomial.X ^ 4 + 1 : Polynomial (ZMod 2)) =
    (Polynomial.X ^ 3 + Polynomial.X + 1) ^ 4 := by
  symm
  calc (Polynomial.X ^ 3 + Polynomial.X + 1 : Polynomial (ZMod 2)) ^ 2 ^ 2
      = (Polynomial.X ^ 3) ^ 2 ^ 2 + Polynomial.X ^ 2 ^ 2 + 1 ^ 2 ^ 2 := by rw [add_pow_char_pow, add_pow_char_pow]
    _ = Polynomial.X ^ 12 + Polynomial.X ^ 4 + 1 := by ring

/-- Settles O21: an inserted bit is the expected bit of 16 advances later, so both obey the recurrence of the taps. -/
theorem insertedBitsObeyTheRecurrence : Obligations.InsertedBitsObeyTheRecurrence :=
  ⟨fun _ => insertedBit_recurrence, seqBit_eq_insertedBit, fun _ => seqBit_of_le, characteristicPolynomial_eq_pow⟩

/-! ### The period (R110) -/

/-- The states 0 to 32 of R110. -/
def firstStates : List Lfsr :=
    [0xFFFF, 0xFFFE, 0xFFFC, 0xFFF8, 0xFFF0, 0xFFE0, 0xFFC0, 0xFF80, 0xFF00, 0xFE01, 0xFC03] ++
    [0xF807, 0xF00F, 0xE01E, 0xC03C, 0x8078, 0x00F0, 0x01E1, 0x03C3, 0x0787, 0x0F0F, 0x1E1F] ++
    [0x3C3F, 0x787F, 0xF0FF, 0xE1FF, 0xC3FF, 0x87FF, 0x0FFF, 0x1FFE, 0x3FFC, 0x7FF8, 0xFFF0]

theorem map_seqState_range : (List.range 33).map seqState = firstStates := by decide

theorem map_seqState_range_32 : (List.range 32).map seqState = firstStates.take 32 := by
  rw [← map_seqState_range, ← List.map_take, List.take_range]
  rfl

/-- A state up to 32 is read off the list. -/
theorem seqState_of_firstStates {k : Nat} {l : Lfsr} (h : firstStates[k]? = some l) : seqState k = l := by
  rw [← map_seqState_range, List.getElem?_map, Option.map_eq_some_iff] at h
  obtain ⟨i, hi, rfl⟩ := h
  obtain ⟨_, rfl⟩ := List.getElem?_eq_some_iff.1 hi
  rw [List.getElem_range]

theorem seqState_mem_firstStates {k : Nat} (h : k < 33) : seqState k ∈ firstStates :=
  map_seqState_range ▸ List.mem_map_of_mem (List.mem_range.2 h)

/-- From state 4 on the states have period 28: state 32 is state 4 again. -/
theorem seqState_add_28 {k : Nat} (hk : 4 ≤ k) : seqState (k + 28) = seqState k := by
  induction k, hk using Nat.le_induction with
  | base => exact (seqState_of_firstStates (k := 32) rfl).trans (seqState_of_firstStates (k := 4) rfl).symm
  | succ k _ ih => rw [Nat.add_right_comm, seqState_succ, ih, seqState_succ]

theorem seqState_add_mul_28 {k : Nat} (hk : 4 ≤ k) (q : Nat) : seqState (k + 28 * q) = seqState k := by
  induction q with
  | zero => rfl
  | succ q ih => rw [Nat.mul_succ, ← Nat.add_assoc, seqState_add_28 (by omega), ih]

/-- The first index of the state with index k: the transient's own, or the one on the first turn of the cycle. -/
def firstIndex (k : Nat) : Nat := if k < 4 then k else 4 + (k - 4) % 28

theorem firstIndex_lt (k : Nat) : firstIndex k < 32 := by
  unfold firstIndex; split <;> omega

theorem seqState_firstIndex (k : Nat) : seqState (firstIndex k) = seqState k := by
  unfold firstIndex
  split
  · rfl
  · have hk : k = (4 + (k - 4) % 28) + 28 * ((k - 4) / 28) := by omega
    conv_rhs => rw [hk, seqState_add_mul_28 (by omega)]

theorem seqState_injOn {j k : Nat} (hj : j < 32) (hk : k < 32) (h : seqState j = seqState k) : j = k := by
  have hnodup : ((List.range 32).map seqState).Nodup := by
    rw [map_seqState_range_32]
    decide
  exact List.inj_on_of_nodup_map hnodup (List.mem_range.2 hj) (List.mem_range.2 hk) h

/-- Two indexes have the same state exactly when their first indexes agree. -/
theorem seqState_eq_iff {j k : Nat} : seqState j = seqState k ↔ firstIndex j = firstIndex k := by
  rw [← seqState_firstIndex j, ← seqState_firstIndex k]
  exact ⟨seqState_injOn (firstIndex_lt j) (firstIndex_lt k), fun h => by rw [h]⟩

/-! ### The sequence against itself at an offset (R148) -/

/-- Sixteen agreeing bits would make two states equal, which an offset that is no multiple of 28 never does. -/
theorem exists_seqBit_ne_of_offset {d : Nat} (hd : d % 28 ≠ 0) (n : Nat) :
    ∃ j, j < 16 ∧ seqBit (n + j + d) ≠ seqBit (n + j) := by
  by_contra! hagree
  have hstate : seqState (n + d) = seqState n :=
    seqState_eq_of_seqBit fun i hi => by rw [Nat.add_right_comm]; exact hagree i hi
  have hindex := seqState_eq_iff.1 hstate
  unfold firstIndex at hindex
  split at hindex <;> split at hindex <;> omega

/-- From the fourth bit on twelve agreeing bits go on agreeing, by the recurrence. -/
theorem seqBit_agree_of_agree_12 {d n : Nat} (hn : 4 ≤ n)
    (h : ∀ j, j < 12 → seqBit (n + j + d) = seqBit (n + j)) (j : Nat) : seqBit (n + j + d) = seqBit (n + j) := by
  induction j using Nat.strong_induction_on with
  | _ j ih =>
    rcases Nat.lt_or_ge j 12 with hj | hj
    · exact h j hj
    · obtain ⟨i, hi⟩ := Nat.exists_eq_add_of_le' (show 16 ≤ n + j by omega)
      have h8 := ih (j - 8) (by omega)
      have h12 := ih (j - 12) (by omega)
      rw [show n + (j - 8) = i + 8 by omega, Nat.add_right_comm] at h8
      rw [show n + (j - 12) = i + 4 by omega, Nat.add_right_comm] at h12
      rw [hi, Nat.add_right_comm, seqBit_recurrence, seqBit_recurrence, h8, h12]

theorem exists_seqBit_ne_of_offset_12 {d n : Nat} (hd : d % 28 ≠ 0) (hn : 4 ≤ n) :
    ∃ j, j < 12 ∧ seqBit (n + j + d) ≠ seqBit (n + j) := by
  by_contra! hagree
  obtain ⟨j, -, hne⟩ := exists_seqBit_ne_of_offset hd n
  exact hne (seqBit_agree_of_agree_12 hn hagree j)

/-- Settles O33: agreeing bits determine the state that gave them, sixteen of them anywhere and twelve from bit 4 on. -/
theorem offsetSequencesAgreeOnAtMost15Bits : Obligations.OffsetSequencesAgreeOnAtMost15Bits := by
  refine ⟨fun d n hd => exists_seqBit_ne_of_offset hd n,
    fun d n hd hn => exists_seqBit_ne_of_offset_12 hd (by omega), fun n hn => ?ones, fun d n hd hn => ?period⟩
  case ones => rw [seqBit_of_le (by omega), seqBit_of_le (by omega)]
  case period =>
    obtain ⟨q, rfl⟩ := Nat.dvd_of_mod_eq_zero hd
    rw [seqBit_eq, seqState_add_mul_28 hn, ← seqBit_eq]

/-- The 0s of the sequence, by the first index. -/
theorem seqBit_eq_false_iff (k : Nat) : seqBit k = false ↔
    (16 ≤ firstIndex k ∧ firstIndex k ≤ 23) ∨ 28 ≤ firstIndex k := by
  have hfirst : ∀ i, i < 32 → (seqBit i = false ↔ (16 ≤ i ∧ i ≤ 23) ∨ 28 ≤ i) := by decide
  rw [← hfirst _ (firstIndex_lt k), seqBit_eq, seqBit_eq, seqState_firstIndex]

/-- Settles O18: the states by evaluation up to state 32, and beyond by the period. -/
theorem expectedBitsHavePeriod28 : Obligations.ExpectedBitsHavePeriod28 := by
  refine ⟨map_seqState_range, by decide, fun k => seqState_add_28, fun j k => seqState_injOn,
    fun j k hj hne => ?transient, fun p hpos hlt => ?noShorter, fun k hk => ?bits⟩
  case transient =>
    rw [Ne, seqState_eq_iff]
    unfold firstIndex
    split <;> omega
  case noShorter =>
    obtain ⟨j, -, hj⟩ := exists_seqBit_ne_of_offset (d := p) (by omega) 4
    exact ⟨4 + j, by omega, hj⟩
  case bits =>
    rw [seqBit_eq_false_iff]
    unfold firstIndex
    split <;> omega

/-! ### The 62 values (R112) -/

theorem forceOverride_forceOverride (b c : Bool) (l : Lfsr) :
    forceOverride b (forceOverride c l) = forceOverride b l :=
  lfsr_ext fun i hi => by
    rw [forceOverride_cell _ _ i hi, forceOverride_cell _ _ i hi, forceOverride_cell _ _ i hi]
    split <;> rfl

/-- The 62 values are the states of R110 under either override: one of the two leaves the state. -/
theorem mem_reachableLfsr_iff {l : Lfsr} : l ∈ reachableLfsr ↔ ∃ k b, l = forceOverride b (seqState k) := by
  constructor
  · intro h
    obtain ⟨k, -, hk⟩ := List.mem_flatMap.1 h
    rw [List.mem_pair] at hk
    rcases hk with rfl | rfl
    · exact ⟨k, seqBit k, (forceOverride_of_cell_out (seqBit_eq k).symm).symm⟩
    · exact ⟨k, _, rfl⟩
  · rintro ⟨k, b, rfl⟩
    refine List.mem_flatMap.2 ⟨firstIndex k, List.mem_range.2 (firstIndex_lt k), List.mem_pair.2 ?_⟩
    rw [← seqState_firstIndex k]
    by_cases hb : b = seqBit (firstIndex k)
    · exact .inl (forceOverride_of_cell_out hb.symm)
    · exact .inr (by rw [Bool.eq_not_of_ne hb])

/-- An override leaves cells 0 to 14. -/
theorem forceOverride_low_cells (b : Bool) (l : Lfsr) : forceOverride b l &&& 0x7FFF = l &&& 0x7FFF := by
  have hmask : (0x7FFF : Lfsr).getLsbD 15 = false := by decide
  refine lfsr_ext fun i hi => ?_
  rw [BitVec.getLsbD_and, BitVec.getLsbD_and, forceOverride_cell b l i hi]
  split
  · subst i; rw [hmask, Bool.and_false, Bool.and_false]
  · rfl

theorem seqState_mem_reachableLfsr (k : Nat) : seqState k ∈ reachableLfsr :=
  mem_reachableLfsr_iff.2 ⟨k, seqBit k, (forceOverride_of_cell_out (seqBit_eq k).symm).symm⟩

theorem seed_mem_reachableLfsr : 0xFFFF ∈ reachableLfsr := seqState_mem_reachableLfsr 0

section
variable {l : Lfsr} (h : l ∈ reachableLfsr)
include h

/-- An advance loses the override, and goes to the next state. -/
theorem advance_mem_reachableLfsr : advance l ∈ reachableLfsr := by
  obtain ⟨k, b, rfl⟩ := mem_reachableLfsr_iff.1 h
  rw [advance_forceOverride, ← seqState_succ]
  exact seqState_mem_reachableLfsr _

theorem forceOverride_mem_reachableLfsr (b : Bool) : forceOverride b l ∈ reachableLfsr := by
  obtain ⟨k, c, rfl⟩ := mem_reachableLfsr_iff.1 h
  rw [forceOverride_forceOverride]
  exact mem_reachableLfsr_iff.2 ⟨k, b, rfl⟩

theorem reachableLfsr_low_cells_ge : 0x0078 ≤ (l &&& 0x7FFF).toNat := by
  have hstates : ∀ l ∈ firstStates, 0x0078 ≤ (l &&& 0x7FFF).toNat := by simp [firstStates]
  obtain ⟨k, b, rfl⟩ := mem_reachableLfsr_iff.1 h
  rw [forceOverride_low_cells, ← seqState_firstIndex]
  exact hstates _ (seqState_mem_firstStates (Nat.lt_succ_of_lt (firstIndex_lt k)))

theorem ne_zero_of_mem_reachableLfsr : l ≠ 0 := by
  rintro rfl
  exact absurd (reachableLfsr_low_cells_ge h) (by decide)

end

/-! States 3 and 31 agree in cells 0 to 14. -/

theorem forceOverride_false_seqState_3 : forceOverride false (seqState 3) = seqState 31 := by
  rw [seqState_of_firstStates (k := 3) rfl, seqState_of_firstStates (k := 31) rfl]
  decide

theorem forceOverride_true_seqState_31 : forceOverride true (seqState 31) = seqState 3 := by
  rw [← forceOverride_false_seqState_3, forceOverride_forceOverride]
  exact forceOverride_of_cell_out (seqBit_of_le (k := 3) (by decide))

/-- The 62 values as literals' overrides, where their number can be counted. -/
theorem reachableLfsr_eq_flatMap_firstStates :
    reachableLfsr = (firstStates.take 32).flatMap fun l => [l, forceOverride (!peek l) l] := by
  rw [← map_seqState_range_32, List.flatMap_map]
  rfl

theorem length_dedup_reachableLfsr : reachableLfsr.dedup.length = 62 := by
  rw [reachableLfsr_eq_flatMap_firstStates]
  decide

/-- Settles O19: closure by the shape of the 62 values, and the finite facts by evaluation. -/
theorem sixtyTwoLfsrValues : Obligations.SixtyTwoLfsrValues :=
  ⟨by decide, by decide, seed_mem_reachableLfsr, length_dedup_reachableLfsr,
    fun _ h => ⟨advance_mem_reachableLfsr h, forceOverride_mem_reachableLfsr h⟩,
    forceOverride_false_seqState_3, forceOverride_true_seqState_31,
    fun _ => reachableLfsr_low_cells_ge,
    ⟨0x8078, seqState_of_firstStates (k := 15) rfl ▸ seqState_mem_reachableLfsr 15, by decide⟩⟩

end Sys2Proof.Machine
end

section
/-! PROOFS. The invariant of the reachable states (R40, R112, R149): every step keeps it, so it holds of every run from RST. -/

namespace Sys2Proof.Machine

/-! ### What the invariant asks in each phase -/

section
variable {r : Regs}

/-- TOTAL is a view of LEN_IDX alone (R32). -/
theorem total_congr {q : Regs} (h : q.lenIdx = r.lenIdx) : total q = total r := by
  rw [total, total, h]

theorem stepInv_of_idle (hp : r.phase = .idle) (hlen : r.lenIdx.toNat ≤ 5)
    (hcounters : r.errBits.toNat ≤ r.countBits.toNat ∧ r.countBits.toNat ≤ (total r).toNat)
    (hcomplete : r.result = .complete → r.countBits = total r) (hlfsr : r.lfsr ∈ reachableLfsr) : StepInv r where
  lenIdx_le := hlen
  thresh_pos := absurd hp
  sync_match := by simp [hp]
  counters := hcounters
  sync_counters := by simp [hp]
  count_locked := by simp [hp]
  complete_total := fun _ => hcomplete
  lfsr_ne_zero := ne_zero_of_mem_reachableLfsr hlfsr
  match_lt := by simp [hp]
  count_lt := by simp [hp]
  lfsr_reachable := hlfsr

theorem stepInv_of_sync (hp : r.phase = .syncWaitRise ∨ r.phase = .syncWaitFall) (hlen : r.lenIdx.toNat ≤ 5)
    (hth : 1 ≤ r.thresh.toNat) (hle : r.matchCnt.toNat ≤ r.thresh.toNat)
    (hlock : r.matchCnt = r.thresh ↔ r.lock = true) (hrise : r.phase = .syncWaitRise → r.lock = false)
    (hcount : r.countBits = 0) (herr : r.errBits = 0) (hlfsr : r.lfsr ∈ reachableLfsr) : StepInv r where
  lenIdx_le := hlen
  thresh_pos := fun _ => hth
  sync_match := fun _ => ⟨hle, hlock⟩
  counters := by rw [hcount, herr]; exact ⟨le_rfl, Nat.zero_le _⟩
  sync_counters := fun _ => ⟨hcount, herr⟩
  count_locked := by rcases hp with hp | hp <;> simp [hp]
  complete_total := by rcases hp with hp | hp <;> simp [hp]
  lfsr_ne_zero := ne_zero_of_mem_reachableLfsr hlfsr
  match_lt := fun h => Nat.lt_of_le_of_ne hle fun heq => by
    have hset := hlock.1 (Count.toNat_inj.1 heq)
    rw [hrise h] at hset
    cases hset
  count_lt := by rcases hp with hp | hp <;> simp [hp]
  lfsr_reachable := hlfsr

theorem stepInv_of_count (hp : r.phase = .countWaitRise ∨ r.phase = .countWaitFall) (hlen : r.lenIdx.toNat ≤ 5)
    (hth : 1 ≤ r.thresh.toNat)
    (hcounters : r.errBits.toNat ≤ r.countBits.toNat ∧ r.countBits.toNat ≤ (total r).toNat)
    (hlock : r.lock = true) (hrise : r.phase = .countWaitRise → r.countBits ≠ total r)
    (hlfsr : r.lfsr ∈ reachableLfsr) : StepInv r where
  lenIdx_le := hlen
  thresh_pos := fun _ => hth
  sync_match := by rcases hp with hp | hp <;> simp [hp]
  counters := hcounters
  sync_counters := by rcases hp with hp | hp <;> simp [hp]
  count_locked := fun _ => hlock
  complete_total := by rcases hp with hp | hp <;> simp [hp]
  lfsr_ne_zero := ne_zero_of_mem_reachableLfsr hlfsr
  match_lt := by rcases hp with hp | hp <;> simp [hp]
  count_lt := fun h => Nat.lt_of_le_of_ne hcounters.2 fun heq => hrise h (Count.toNat_inj.1 heq)
  lfsr_reachable := hlfsr

theorem stepInv_reset : StepInv Regs.reset :=
  stepInv_of_idle rfl (Nat.zero_le 5) ⟨le_rfl, Nat.zero_le _⟩ (fun h => nomatch h) seed_mem_reachableLfsr

/-! ### Each action keeps it -/

/-- While the core waits for a sync bit, LOCK is 0: MATCH_CNT has not reached THRESH (R149). -/
theorem StepInv.lock_eq_false (h : StepInv r) (hp : r.phase = .syncWaitRise) : r.lock = false := by
  obtain ⟨-, hlock⟩ := h.sync_match (.inl hp)
  have hlt := h.match_lt hp
  rw [Bool.eq_false_iff, Ne, ← hlock, ← Count.toNat_inj]
  exact Nat.ne_of_lt hlt

theorem StepInv.setLfsr (h : StepInv r) {l : Lfsr} (hl : l ∈ reachableLfsr) : StepInv (r.setLfsr l) :=
  { h with lfsr_ne_zero := ne_zero_of_mem_reachableLfsr hl, lfsr_reachable := hl }

/-- A measurement may end with any code, but with COMPLETE at TOTAL only. -/
theorem StepInv.endMeasurement (h : StepInv r) {code : Result} (hcode : code = .complete → r.countBits = total r) :
    StepInv (endMeasurement code r) :=
  stepInv_of_idle rfl h.lenIdx_le h.counters hcode h.lfsr_reachable

/-- In IDLE a write of RESULT is a measurement's end. -/
theorem setResult_eq_endMeasurement (hp : r.phase = .idle) (code : Result) :
    r.setResult code = Machine.endMeasurement code r := by
  rw [Machine.endMeasurement, Regs.setPhase, ← hp]

theorem StepInv.setResult (h : StepInv r) (hp : r.phase = .idle) {code : Result} (hcode : code ≠ .complete) :
    StepInv (r.setResult code) :=
  setResult_eq_endMeasurement hp code ▸ h.endMeasurement fun hc => absurd hc hcode

/-- MATCH_CNT grows to at most THRESH, and LOCK follows it (R141, R143). -/
theorem StepInv.syncBit (h : StepInv r) (hp : r.phase = .syncWaitRise) (bit : Bool) : StepInv (syncBit bit r) := by
  have hlt := h.match_lt hp
  have htop := Thresh.toNat_lt r.thresh
  obtain ⟨hcount, herr⟩ := h.sync_counters (.inl hp)
  refine stepInv_of_sync (.inr (syncBit_phase _ _)) (by simpa using h.lenIdx_le)
    (by simpa using h.thresh_pos (by simp [hp])) ?_ ?_ (fun hrise => nomatch hrise) (by simpa using hcount)
    (by simpa using herr) ?_
  · rw [syncBit_matchCnt, syncBit_thresh]
    split
    · rw [Count.toNat_add_one (by omega)]; exact hlt
    · exact Nat.zero_le _
  · rw [syncBit_lock, h.lock_eq_false hp, Bool.false_or, beq_iff_eq, syncBit_thresh]
  · rw [syncBit_lfsr]; exact advance_mem_reachableLfsr h.lfsr_reachable

/-- SYNC-FALL hands over with empty counters, and TOTAL is not 0 (R144). -/
theorem StepInv.syncFall (h : StepInv r) (hp : r.phase = .syncWaitFall) : StepInv (syncFall r) := by
  obtain ⟨hle, hlock⟩ := h.sync_match (.inr hp)
  obtain ⟨hcount, herr⟩ := h.sync_counters (.inr hp)
  have hth := h.thresh_pos (by simp [hp])
  cases hset : r.lock with
  | true =>
    have hphase : (Machine.syncFall r).phase = .countWaitRise := by rw [syncFall_phase, hset]; rfl
    refine stepInv_of_count (.inl hphase) h.lenIdx_le hth h.counters hset (fun _ hfull => ?_) h.lfsr_reachable
    have hge : 1000 ≤ (total r).toNat := lengthAt_ge r.lenIdx h.lenIdx_le
    rw [syncFall_countBits, hcount, total_congr (syncFall_lenIdx r)] at hfull
    rw [← hfull] at hge
    exact absurd hge (by decide)
  | false =>
    have hphase : (Machine.syncFall r).phase = .syncWaitRise := by rw [syncFall_phase, hset]; rfl
    exact stepInv_of_sync (.inl hphase) h.lenIdx_le hth hle hlock (fun _ => hset) hcount herr h.lfsr_reachable

/-- A counted bit adds at most one error, and one bit below TOTAL (R164). -/
theorem StepInv.countBit (h : StepInv r) (hp : r.phase = .countWaitRise) (bit : Bool) : StepInv (countBit bit r) := by
  have hlt := h.count_lt hp
  have htop := Count.toNat_lt (total r)
  obtain ⟨herr, -⟩ := h.counters
  refine stepInv_of_count (.inr (countBit_phase _ _)) (by simpa using h.lenIdx_le)
    (by simpa using h.thresh_pos (by simp [hp])) ?_ (by simpa using h.count_locked (.inl hp))
    (fun hrise => nomatch hrise) ?_
  · rw [countBit_errBits, countBit_countBits, total_congr (countBit_lenIdx bit r), Count.toNat_add_one (by omega)]
    refine ⟨?_, hlt⟩
    split
    · exact Nat.le_succ_of_le herr
    · rw [Count.toNat_add_one (by omega)]; exact Nat.succ_le_succ herr
  · rw [countBit_lfsr]; exact advance_mem_reachableLfsr h.lfsr_reachable

theorem StepInv.countFall (h : StepInv r) (hp : r.phase = .countWaitFall) : StepInv (countFall r) := by
  by_cases hfull : r.countBits = total r
  · rw [countFall_of_full hfull]
    exact h.endMeasurement fun _ => hfull
  · rw [countFall_of_not_full hfull]
    exact stepInv_of_count (.inl rfl) h.lenIdx_le (h.thresh_pos (by simp [hp])) h.counters (h.count_locked (.inr hp))
      (fun _ => hfull) h.lfsr_reachable

/-- A valid MEASURE meets the invariant from any registers (R162). -/
theorem stepInv_startMeasurement {p : Ports} (hi : p.cfgLenIdx.toNat ≤ 5) (hth : p.cfgThresh ≠ 0) :
    StepInv (startMeasurement p r) := by
  have hpos : 0 < p.cfgThresh.toNat := Thresh.ne_zero_iff.1 hth
  exact stepInv_of_sync (.inl rfl) hi hpos (Nat.zero_le _) ⟨fun heq => absurd heq.symm hth, fun hlock => nomatch hlock⟩
    (fun _ => rfl) rfl rfl seed_mem_reachableLfsr

end

/-! ### Every step keeps it -/

theorem StepEffect.keeps_stepInv {s : State} {t : Regs} (he : StepEffect s t) (h : StepInv s.regs) : StepInv t := by
  cases he with
  | reset hr ht => rw [ht]; exact stepInv_reset
  | syncBit hr hc hp hl ht => rw [ht]; exact h.syncBit hp _
  | syncFall hr hc hp hl ht => rw [ht]; exact h.syncFall hp
  | countBit hr hc hp hl ht => rw [ht]; exact h.countBit hp _
  | countFall hr hc hp hl ht => rw [ht]; exact h.countFall hp
  | abortBusy hr hc hp ht => rw [ht]; exact h.endMeasurement fun hcode => nomatch hcode
  | measure hr hc hp hi hth ht => rw [ht]; exact stepInv_startMeasurement hi hth
  | invalidIndex hr hc hp hi ht => rw [ht]; exact h.setResult hp (by decide)
  | invalidThreshold hr hc hp hi hth ht => rw [ht]; exact h.setResult hp (by decide)
  | sgReset hr hc hp ht => rw [ht]; exact h.setLfsr seed_mem_reachableLfsr
  | sgAdvance hr hc hp ht => rw [ht]; exact h.setLfsr (advance_mem_reachableLfsr h.lfsr_reachable)
  | sgForce b hr hc hp ht => rw [ht]; exact h.setLfsr (forceOverride_mem_reachableLfsr h.lfsr_reachable b)
  | idlePoll hr hc hp ht => rw [ht]; exact h
  | riseHold hr hc hp hl ht => rw [ht]; exact h
  | fallHold hr hc hp hl ht => rw [ht]; exact h
  | abortIdle hr hc hp ht => rw [ht]; exact h

theorem step_keeps_stepInv {s t : State} (h : step s = .next t) (hinv : StepInv s.regs) : StepInv t.regs :=
  (step_effect h).1.keeps_stepInv hinv

/-- Settles O49: the reset registers are those of an idle core with empty counters and the seed. -/
theorem resetMeetsTheInvariant : Obligations.ResetMeetsTheInvariant := ⟨rfl, stepInv_reset⟩

/-- Settles O50: a reset writes registers that meet the invariant, and every other effect of a step keeps it. -/
theorem stepKeepsTheInvariant : Obligations.StepKeepsTheInvariant := by
  intro s t h hstart
  refine ⟨(step_effect h).2, ?_⟩
  rcases hstart with hr | ⟨-, hinv⟩
  · rw [step_regs_of_rst h hr]; exact stepInv_reset
  · exact step_keeps_stepInv h hinv

/-! ### Every run from RST -/

/-- The invariant holds in every state reachable from RST, whatever the inputs. -/
theorem stepInv_of_run_from_rst {p : Ports} {ps : List Ports} {s t : State} (hr : p.rst = true)
    (h : runOn (p :: ps) s = .next t) : StepInv t.regs := by
  obtain ⟨u, hu, -, hregs⟩ := exists_step_of_rst (s := s.setPorts p) hr
  rw [runOn_cons_next hu] at h
  exact runOn_induction (P := fun v => StepInv v.regs) (fun _ _ _ hinv hstep => step_keeps_stepInv hstep hinv)
    (hregs ▸ stepInv_reset) h

/-- Settles O20: membership is part of the invariant. -/
theorem lfsrStaysAmongThe62Values : Obligations.LfsrStaysAmongThe62Values := by
  intro p ps s t hr h
  have hinv := stepInv_of_run_from_rst hr h
  exact ⟨hinv.lfsr_reachable, hinv.lfsr_ne_zero⟩

/-- Settles O51: the eight facts are the invariant's first part. -/
theorem reachableStatesSatisfyR40 : Obligations.ReachableStatesSatisfyR40 := by
  intro p ps s t hr h
  have hinv := stepInv_of_run_from_rst hr h
  exact ⟨hinv.lenIdx_le, hinv.thresh_pos, hinv.sync_match, hinv.counters, hinv.sync_counters, hinv.count_locked,
    hinv.complete_total, hinv.lfsr_ne_zero⟩

/-! ### What the invariant says of the counters -/

/-- Settles O47: the writers of O46, with room below the top of the range wherever one adds, and the bounds after the step. -/
theorem counterAdditionsNeverWrap : Obligations.CounterAdditionsNeverWrap := by
  intro s t hinv h
  obtain ⟨hclears, hmatch, hmismatch, herror, hnoError, hcounted, hmatchKept, hwindowKept, -⟩ :=
    countersHaveOnlyTheirWriters s t h
  have hafter := step_keeps_stepInv h hinv
  obtain ⟨herrLe, hcountLe⟩ := hafter.counters
  have hroom : TakesCountBit s → s.regs.errBits.toNat < 65535 ∧ s.regs.countBits.toNat < 65535 := by
    rintro ⟨-, hp, -⟩
    have hlt := hinv.count_lt hp
    have htop := Count.toNat_lt (total s.regs)
    have herr := hinv.counters.1
    omega
  have hcase : (t.regs.matchCnt = 0 ∧ t.regs.errBits = 0 ∧ t.regs.countBits = 0) ∨
      (s.ports.rst = false ∧ ¬ StartsMeasurement s) := by
    by_cases hclear : s.ports.rst = true ∨ StartsMeasurement s
    · exact .inl (hclears hclear)
    · rw [not_or, Bool.not_eq_true] at hclear
      exact .inr hclear
  refine ⟨fun hs heq => ?addsMatch, fun hc => ?addsCount, fun hc hne => ?addsError, fun hno => ?matchOrZero,
    fun hno => ?countOrZero, fun hno => ?errorOrZero, hcountLe, herrLe, fun hp => (hafter.sync_match hp).1⟩
  case addsMatch =>
    have ⟨_, hp, _⟩ := hs
    have hlt := hinv.match_lt hp
    have htop := Thresh.toNat_lt s.regs.thresh
    rw [hmatch hs heq, Count.toNat_add_one (by omega)]
  case addsCount => rw [hcounted hc, Count.toNat_add_one (hroom hc).2]
  case addsError => rw [herror hc hne, Count.toNat_add_one (hroom hc).1]
  case matchOrZero =>
    rcases hcase with ⟨hmatch0, -, -⟩ | ⟨hr, hm⟩
    · exact .inr hmatch0
    · by_cases hs : TakesSyncBit s
      · exact .inr (hmismatch hs fun heq => hno ⟨hs, heq⟩)
      · exact .inl (hmatchKept hr hm hs)
  case countOrZero =>
    rcases hcase with ⟨-, -, hcount0⟩ | ⟨hr, hm⟩
    · exact .inr hcount0
    · exact .inl (hwindowKept hr hm hno).2
  case errorOrZero =>
    rcases hcase with ⟨-, herr0, -⟩ | ⟨hr, hm⟩
    · exact .inr herr0
    · by_cases hc : TakesCountBit s
      · exact .inl (hnoError hc (by_contra fun hne => hno ⟨hc, hne⟩))
      · exact .inl (hwindowKept hr hm hc).1

/-! ### The host's check -/

section
variable {r : Regs}

theorem berOperands_of_not_complete (h : r.result ≠ .complete) : berOperands r = .error .notYetMeasured := by
  simp [berOperands, h]

theorem berOperands_of_complete (h : r.result = .complete) :
    berOperands r = if r.countBits = 0 then .error .divisionByZero else .ok (r.errBits, r.countBits) := by
  simp [berOperands, h]

/-- A completed measurement counted TOTAL bits, at least 1000. -/
theorem StepInv.countBits_ge_of_complete (h : StepInv r) (hidle : r.phase = .idle) (hc : r.result = .complete) :
    1000 ≤ r.countBits.toNat := by
  rw [h.complete_total hidle hc]
  exact lengthAt_ge r.lenIdx h.lenIdx_le

end

/-- Settles O48: the two checks in their order; under the invariant the second cannot fail after a completion. -/
theorem ratioNeedsACompletedMeasurement : Obligations.RatioNeedsACompletedMeasurement := by
  refine fun r => ⟨berOperands_of_not_complete, fun hc h0 => ?zero, fun hc h0 => ?nonzero, fun hinv hidle hc => ?completed⟩
  case zero => rw [berOperands_of_complete hc, if_pos h0]
  case nonzero => rw [berOperands_of_complete hc, if_neg h0]
  case completed =>
    have hge := hinv.countBits_ge_of_complete hidle hc
    have h0 : r.countBits ≠ 0 := fun h => by rw [h] at hge; exact absurd hge (by decide)
    exact ⟨by rw [berOperands_of_complete hc, if_neg h0], hge⟩

end Sys2Proof.Machine
end

section
/-! PROOFS. The poll steps over a run: the waits are level tests (R123, R125), and the LFSR advances once for each run of the
logical clock at 1 (R126). -/

namespace Sys2Proof.Machine

/-! ### The two waits -/

/-- A poll step answers, with the registers of `poll`. -/
theorem exists_step_of_pollStep {s : State} (h : PollStep s) : ∃ t, step s = .next t ∧ t.regs = poll s.ports s.regs := by
  obtain ⟨hr, hs, hc⟩ := h
  exact exists_step_of_exec (i := .nop) hr hs hc (exec_nop s)

section
variable {p : Ports} {r : Regs}

/-- A rise wait ends in the fall wait of its phase. -/
theorem poll_rise_phase (hp : r.phase = .syncWaitRise ∨ r.phase = .countWaitRise) (hclk : p.clk ≠ r.clkPol) :
    (poll p r).phase = .syncWaitFall ∨ (poll p r).phase = .countWaitFall := by
  rcases hp with hp | hp
  · rw [poll_syncBit_of_clk hp hclk]; exact .inl (syncBit_phase _ _)
  · rw [poll_countBit_of_clk hp hclk]; exact .inr (countBit_phase _ _)

/-- A fall wait ends in a rise wait, or in IDLE at the completion. -/
theorem poll_fall_phase (hp : r.phase = .syncWaitFall ∨ r.phase = .countWaitFall) (hclk : p.clk = r.clkPol) :
    (poll p r).phase = .syncWaitRise ∨ (poll p r).phase = .countWaitRise ∨ (poll p r).phase = .idle := by
  rcases hp with hp | hp
  · rw [poll_syncFall_of_clk hp hclk, syncFall_phase]; split <;> simp
  · rw [poll_countFall_of_clk hp hclk, countFall_phase]; split <;> simp

end

/-- Settles O22: each wait holds at one level of the logical clock and takes its action at the other. -/
theorem waitsAreLevelTests : Obligations.WaitsAreLevelTests := by
  intro s hpoll
  obtain ⟨t, ht, hregs⟩ := exists_step_of_pollStep hpoll
  refine ⟨t, ht, ?_⟩
  rw [hregs]
  exact ⟨fun hp => ⟨fun hclk => poll_hold (.inl ⟨hp, hclk⟩), poll_rise_phase hp⟩,
    fun hp => ⟨fun hclk => poll_hold (.inr ⟨hp, hclk⟩), poll_fall_phase hp⟩⟩

/-! ### One poll step and the logical clock -/

/-- The core waits for lc = 0. -/
def inFallWait (r : Regs) : Bool := decide (r.phase = .syncWaitFall ∨ r.phase = .countWaitFall)

/-- A busy core waits for a rise or for a fall. -/
theorem waits_of_busy {r : Regs} (h : r.phase ≠ .idle) :
    ((r.phase = .syncWaitRise ∨ r.phase = .countWaitRise) ∧ inFallWait r = false) ∨
      ((r.phase = .syncWaitFall ∨ r.phase = .countWaitFall) ∧ inFallWait r = true) := by
  cases hp : r.phase <;> simp_all [inFallWait]

theorem inFallWait_iff (r : Regs) : inFallWait r = true ↔ r.phase = .syncWaitFall ∨ r.phase = .countWaitFall :=
  decide_eq_true_iff

section
variable (p : Ports) (r : Regs)

/-- No action of a poll step writes CLK_POL. -/
theorem poll_clkPol : (poll p r).clkPol = r.clkPol := by
  rcases poll_cases (p := p) (r := r) with h | ⟨-, -, h⟩ | ⟨-, -, h⟩ | ⟨-, -, h⟩ | ⟨-, -, h⟩ <;> simp [h]

variable {p r}

/-- While the measurement runs, a poll step leaves the core in a fall wait exactly if it saw lc = 1. -/
theorem inFallWait_poll (hbusy : r.phase ≠ .idle) (hafter : (poll p r).phase ≠ .idle) :
    inFallWait (poll p r) = (p.clk != r.clkPol) := by
  by_cases hclk : p.clk = r.clkPol
  · have hnot : ¬ ((poll p r).phase = .syncWaitFall ∨ (poll p r).phase = .countWaitFall) := by
      rcases waits_of_busy hbusy with ⟨hp, -⟩ | ⟨hp, -⟩
      · rw [poll_hold (.inl ⟨hp, hclk⟩)]; rcases hp with hp | hp <;> simp [hp]
      · rcases poll_fall_phase hp hclk with h | h | h
        · simp [h]
        · simp [h]
        · exact absurd h hafter
    rw [hclk, bne_self_eq_false, Bool.eq_false_iff, Ne, inFallWait_iff]
    exact hnot
  · rw [bne_iff_ne.2 hclk, inFallWait_iff]
    rcases waits_of_busy hbusy with ⟨hp, -⟩ | ⟨hp, -⟩
    · exact poll_rise_phase hp hclk
    · rw [poll_hold (.inr ⟨hp, hclk⟩)]; exact hp

/-- While the measurement runs, a poll step advances the LFSR exactly if lc is 1 in it and the core waits for a rise. -/
theorem poll_lfsr (hbusy : r.phase ≠ .idle) :
    (poll p r).lfsr = advances (if (p.clk != r.clkPol) && !inFallWait r then 1 else 0) r.lfsr := by
  rcases waits_of_busy hbusy with ⟨hp, hfall⟩ | ⟨hp, hfall⟩ <;> rw [hfall] <;> by_cases hclk : p.clk = r.clkPol
  · rw [poll_hold (.inl ⟨hp, hclk⟩), hclk, bne_self_eq_false]; rfl
  · rw [bne_iff_ne.2 hclk]
    rcases hp with hp | hp
    · rw [poll_syncBit_of_clk hp hclk, syncBit_lfsr]; rfl
    · rw [poll_countBit_of_clk hp hclk, countBit_lfsr]; rfl
  · rcases hp with hp | hp
    · rw [poll_syncFall_of_clk hp hclk, syncFall_lfsr, Bool.not_true, Bool.and_false]; rfl
    · rw [poll_countFall_of_clk hp hclk, countFall_lfsr, Bool.not_true, Bool.and_false]; rfl
  · rw [poll_hold (.inr ⟨hp, hclk⟩), Bool.not_true, Bool.and_false]; rfl

end

/-! ### Runs of poll steps -/

theorem advances_add (a b : Nat) (l : Lfsr) : advances (a + b) l = advances b (advances a l) := by
  induction a generalizing l with
  | zero => rw [Nat.zero_add]; rfl
  | succ a ih => rw [Nat.succ_add, advances, ih, advances]

/-- No poll step starts a measurement, so one that runs at the end has run all along. -/
theorem busy_of_polls {ps : List Ports} {s t : State} (hs : s.rstSeen = true)
    (hpoll : ∀ p ∈ ps, p.rst = false ∧ p.cmd = 0x00) (h : runOn ps s = .next t) (hbusy : t.regs.phase ≠ .idle) :
    s.regs.phase ≠ .idle := by
  intro hidle
  obtain ⟨u, hu, hregs⟩ := runOn_polls_hold hs hpoll fun p _ => poll_idle hidle
  cases hu.symm.trans h
  exact hbusy (hregs ▸ hidle)

/-- Settles O24: by induction over the poll steps, the level before each being known from the wait the core is in. -/
theorem oneSampleForEachRunOfOnes : Obligations.OneSampleForEachRunOfOnes := by
  intro ps
  induction ps with
  | nil =>
    intro s t _ _ h _
    cases h
    rfl
  | cons p ps ih =>
    intro s t hs hpoll h hbusy
    have hstart := busy_of_polls hs hpoll h hbusy
    rw [List.forall_mem_cons] at hpoll
    obtain ⟨⟨hr, hc⟩, hpolls⟩ := hpoll
    rw [runOn_cons_next (stepOn_poll hs hr hc)] at h
    generalize hu : nextInputs ((s.setPorts p).setRegs (poll p s.regs)) = u at h
    have hregs : u.regs = poll p s.regs := by rw [← hu, nextInputs_regs, State.setRegs_regs]
    have hseen : u.rstSeen = true := by rw [← hu, nextInputs_rstSeen, State.setRegs_rstSeen, State.setPorts_rstSeen, hs]
    have hrunning := busy_of_polls hseen hpolls h hbusy
    have hrest := ih u t hseen hpolls h hbusy
    rw [hregs] at hrunning hrest
    have hwait := inFallWait_poll hstart hrunning
    rw [inFallWait] at hwait
    rw [hrest, poll_lfsr hstart, ← advances_add, hwait, poll_clkPol]
    rfl

end Sys2Proof.Machine
end

section
/-! PROOFS. What a step reads: two runs whose states and inputs correspond have outcomes that correspond. It gives the
relabelling of the polarities (R128), the independence of ports that do not matter (R122, R170) and of the past (R232). -/

namespace Sys2Proof.Machine

/-! ### The inputs of the coming steps -/

/-- Settles O7: a command changes registers only, so the inputs that move on are those that stood before it. -/
theorem stepRunsTheDecodedCommand : Obligations.StepRunsTheDecodedCommand := by
  intro s i hr hs hd
  rw [step_of_command hr hs hd]
  refine ⟨fun r he => by rw [he, thenNextInputs_refused], fun t he => ?_⟩
  have ht := exec_next he
  rw [he, thenNextInputs_next, ht]
  refine ⟨fun p ps hscript => ?script, fun hscript => ?undriven⟩
  case script => rw [nextInputs_of_script (s.setRegs t.regs) p ps hscript]
  case undriven => rw [nextInputs_of_nil (s.setRegs t.regs) hscript]; rfl

/-! ### Inverting lines and polarities together -/

/-- The ports with the clock line and its polarity input inverted where `c`, and the data line and its where `d`. -/
def invertLines (c d : Bool) (p : Ports) : Ports :=
  { p with clk := p.clk ^^ c, cfgClkPol := p.cfgClkPol ^^ c, data := p.data ^^ d, cfgDataPol := p.cfgDataPol ^^ d }

/-- The registers with CLK_POL inverted where `c`, and DATA_POL where `d`. -/
def invertPols (c d : Bool) (r : Regs) : Regs := { r with clkPol := r.clkPol ^^ c, dataPol := r.dataPol ^^ d }

theorem invertLines_data : invertLines false true = flipData := by
  funext p; simp [invertLines, flipData]

theorem invertLines_clock : invertLines true false = flipClock := by
  funext p; simp [invertLines, flipClock]

theorem invertLines_none : invertLines false false = id := by
  funext p; simp [invertLines]

theorem invertPols_data : invertPols false true = flipDataPol := by
  funext r; simp [invertPols, flipDataPol]

theorem invertPols_clock : invertPols true false = flipClockPol := by
  funext r; simp [invertPols, flipClockPol]

theorem invertPols_none : invertPols false false = id := by
  funext r; simp [invertPols]

section
variable {c d : Bool} {p : Ports} {r : Regs}

/-- The logical levels do not change (R120, R121). -/
theorem logicalClock_invert : logicalClock (invertLines c d p) (invertPols c d r) = logicalClock p r := by
  cases c <;> simp [logicalClock, invertLines, invertPols]

theorem sampledBit_invert : sampledBit (invertLines c d p) (invertPols c d r) = sampledBit p r := by
  cases d <;> simp [sampledBit, logicalData, invertLines, invertPols]

/-! No action reads a polarity latch. -/

theorem syncBit_invert (bit : Bool) : syncBit bit (invertPols c d r) = invertPols c d (syncBit bit r) := by
  rw [syncBit_eq, syncBit_eq bit r, syncBit_matchCnt, syncBit_matchCnt]
  rfl

theorem countBit_invert (bit : Bool) : countBit bit (invertPols c d r) = invertPols c d (countBit bit r) := by
  rw [countBit_eq, countBit_eq bit r, countBit_errBits, countBit_errBits]
  rfl

theorem countFall_invert : countFall (invertPols c d r) = invertPols c d (countFall r) := by
  by_cases hfull : r.countBits = total r
  · rw [countFall_of_full hfull, countFall_of_full (r := invertPols c d r) hfull]; rfl
  · rw [countFall_of_not_full hfull, countFall_of_not_full (r := invertPols c d r) hfull]; rfl

theorem riseWait_invert {action : Regs → Regs} (h : action (invertPols c d r) = invertPols c d (action r)) :
    riseWait (invertLines c d p) action (invertPols c d r) = invertPols c d (riseWait p action r) := by
  rw [riseWait, riseWait, logicalClock_invert, h, apply_ite (invertPols c d)]

theorem fallWait_invert {action : Regs → Regs} (h : action (invertPols c d r) = invertPols c d (action r)) :
    fallWait (invertLines c d p) action (invertPols c d r) = invertPols c d (fallWait p action r) := by
  rw [fallWait, fallWait, logicalClock_invert, h, apply_ite (invertPols c d)]

theorem poll_invert : poll (invertLines c d p) (invertPols c d r) = invertPols c d (poll p r) := by
  have hphase : (invertPols c d r).phase = r.phase := rfl
  cases hp : r.phase with
  | idle => rw [poll_idle hp, poll_idle (hphase.trans hp)]
  | syncWaitRise => simp only [poll, hphase, hp, sampledBit_invert]; exact riseWait_invert (syncBit_invert _)
  | syncWaitFall => simp only [poll, hphase, hp]; exact fallWait_invert rfl
  | countWaitRise => simp only [poll, hphase, hp, sampledBit_invert]; exact riseWait_invert (countBit_invert _)
  | countWaitFall => simp only [poll, hphase, hp]; exact fallWait_invert countFall_invert

/-- MEASURE latches the inverted polarities, or writes RESULT only. -/
theorem measureEffect_invert :
    measureEffect (invertLines c d p) (invertPols c d r) = invertPols c d (measureEffect p r) := by
  rw [measureEffect, measureEffect, apply_ite (invertPols c d)]
  rfl

end

/-! ### Corresponding steps and runs -/

/-- Agreeing outcomes are two next states or one refusal. -/
theorem sameOutcome_cases {m : Regs → Regs} {a b : Host.Outcome State Fault Refusal} (h : SameOutcome m a b) :
    (∃ s t, a = .next s ∧ b = .next t ∧ t.regs = m s.regs ∧ t.rstSeen = s.rstSeen) ∨
      ∃ r, a = .refused r ∧ b = .refused r := by
  cases a with
  | next s =>
    cases b with
    | next t => exact .inl ⟨s, t, rfl, rfl, h⟩
    | fault f => cases f
    | refused r => exact h.elim
  | fault f => cases f
  | refused r =>
    cases b with
    | next t => exact h.elim
    | fault f => cases f
    | refused r' => cases h; exact .inr ⟨r, rfl, rfl⟩

/-- A command of IDLE has corresponding outcomes in corresponding states. -/
theorem whenIdle_sameOutcome {m f g : Regs → Regs} {s u : State} (hphase : u.regs.phase = s.regs.phase)
    (hseen : u.rstSeen = s.rstSeen) (h : g u.regs = m (f s.regs)) : SameOutcome m (whenIdle f s) (whenIdle g u) := by
  by_cases hp : s.regs.phase = .idle
  · rw [whenIdle_idle hp, whenIdle_idle (hphase.trans hp)]
    exact ⟨h, hseen⟩
  · rw [whenIdle_busy hp, whenIdle_busy (hphase ▸ hp)]
    rfl

section
variable {c d : Bool} {s u : State} (hregs : u.regs = invertPols c d s.regs) (hseen : u.rstSeen = s.rstSeen)
include hregs hseen

theorem exec_invert_sameOutcome (i : Instr) (hports : u.ports = invertLines c d s.ports) :
    SameOutcome (invertPols c d) (exec i s) (exec i u) := by
  have hphase : u.regs.phase = s.regs.phase := by rw [hregs]; rfl
  cases i with
  | nop => exact ⟨by rw [State.setRegs_regs, State.setRegs_regs, hports, hregs, poll_invert], hseen⟩
  | measure =>
    rw [exec_measure_eq_whenIdle, exec_measure_eq_whenIdle, hports]
    exact whenIdle_sameOutcome hphase hseen (by rw [hregs, measureEffect_invert])
  | abort =>
    refine ⟨?_, hseen⟩
    rw [State.setRegs_regs, State.setRegs_regs, hregs, apply_ite (invertPols c d)]
    rfl
  | sgReset => exact whenIdle_sameOutcome hphase hseen (by rw [hregs]; rfl)
  | sgAdvance => exact whenIdle_sameOutcome hphase hseen (by rw [hregs]; rfl)
  | sgForce b => exact whenIdle_sameOutcome hphase hseen (by rw [hregs]; rfl)

/-- One step: RST alone would end the correspondence, by writing both latches. -/
theorem stepOn_invert_sameOutcome {p : Ports} (hreset : p.rst = true → invertPols c d Regs.reset = Regs.reset) :
    SameOutcome (invertPols c d) (stepOn p s) (stepOn (invertLines c d p) u) := by
  rw [stepOn, stepOn]
  cases hr : p.rst with
  | true =>
    rw [step_of_rst (s := s.setPorts p) hr, step_of_rst (s := u.setPorts (invertLines c d p)) hr]
    simp [SameOutcome, hreset hr]
  | false =>
    cases hs : s.rstSeen with
    | false =>
      rw [step_of_not_rstSeen (s := s.setPorts p) hr hs,
        step_of_not_rstSeen (s := u.setPorts (invertLines c d p)) hr (hseen.trans hs)]
      rfl
    | true =>
      cases hd : decode p.cmd with
      | error e =>
        rw [step_of_illegal (s := s.setPorts p) hr hs hd,
          step_of_illegal (s := u.setPorts (invertLines c d p)) hr (hseen.trans hs) hd]
        rfl
      | ok i =>
        rw [step_of_command (s := s.setPorts p) hr hs hd,
          step_of_command (s := u.setPorts (invertLines c d p)) hr (hseen.trans hs) hd]
        exact sameOutcome_thenNextInputs (exec_invert_sameOutcome (s := s.setPorts p)
          (u := u.setPorts (invertLines c d p)) hregs hseen i rfl)

end

/-- A refused step ends the run (R206). -/
theorem runOn_cons_refused {p : Ports} {ps : List Ports} {s : State} {r : Refusal} (h : stepOn p s = .refused r) :
    runOn (p :: ps) s = .refused r := by
  simp [runOn, h]

/-- Over a run, step by step. -/
theorem runOn_invert_sameOutcome {c d : Bool} {ps : List Ports}
    (hreset : ∀ p ∈ ps, p.rst = true → invertPols c d Regs.reset = Regs.reset) {s u : State}
    (hregs : u.regs = invertPols c d s.regs) (hseen : u.rstSeen = s.rstSeen) :
    SameOutcome (invertPols c d) (runOn ps s) (runOn (ps.map (invertLines c d)) u) := by
  induction ps generalizing s u with
  | nil => exact ⟨hregs, hseen⟩
  | cons p ps ih =>
    rw [List.forall_mem_cons] at hreset
    obtain ⟨hfirst, hrest⟩ := hreset
    have hstep := stepOn_invert_sameOutcome hregs hseen hfirst
    rw [List.map_cons]
    rcases sameOutcome_cases hstep with ⟨s', u', hs, hu, hregs', hseen'⟩ | ⟨r, hs, hu⟩
    · rw [runOn_cons_next hs, runOn_cons_next hu]
      exact ih hrest hregs' hseen'
    · rw [runOn_cons_refused hs, runOn_cons_refused hu]
      rfl

/-- Settles O25: the logical levels are the same, no action reads a polarity latch, and MEASURE latches the inverted one. -/
theorem polarityIsARelabelling : Obligations.PolarityIsARelabelling := by
  intro ps s hrst
  have hreset (c d : Bool) : ∀ p ∈ ps, p.rst = true → invertPols c d Regs.reset = Regs.reset := fun p hp hr => by
    rw [hrst p hp] at hr; cases hr
  rw [← invertPols_data, ← invertPols_clock, ← invertLines_data, ← invertLines_clock]
  exact ⟨runOn_invert_sameOutcome (hreset _ _) rfl rfl, runOn_invert_sameOutcome (hreset _ _) rfl rfl⟩

/-! ### The same inputs in states with the same registers -/

section
variable {s u : State} (hregs : u.regs = s.regs) (hseen : u.rstSeen = s.rstSeen)
include hregs hseen

theorem stepOn_sameOutcome (p : Ports) : SameOutcome id (stepOn p s) (stepOn p u) := by
  have h := stepOn_invert_sameOutcome (c := false) (d := false) (p := p) (by rw [invertPols_none]; exact hregs) hseen
    fun _ => by rw [invertPols_none]; rfl
  rwa [invertPols_none, invertLines_none] at h

theorem runOn_sameOutcome (ps : List Ports) : SameOutcome id (runOn ps s) (runOn ps u) := by
  have h := runOn_invert_sameOutcome (c := false) (d := false) (ps := ps)
    (fun _ _ _ => by rw [invertPols_none]; rfl) (by rw [invertPols_none]; exact hregs) hseen
  rwa [invertPols_none, invertLines_none, List.map_id] at h

end

/-- Settles O59: a valid MEASURE writes every register, so the two runs go on from the same registers. -/
theorem measurementForgetsThePast : Obligations.MeasurementForgetsThePast := by
  rintro s u m ps hs hu hps hpu ⟨hr, hc, hi, hth⟩
  obtain ⟨s', hs', hsseen, hsregs⟩ := stepOn_measure hs hps hr hc hi hth
  obtain ⟨u', hu', huseen, huregs⟩ := stepOn_measure hu hpu hr hc hi hth
  rw [runOn_cons_next hs', runOn_cons_next hu']
  exact runOn_sameOutcome (huregs.trans hsregs.symm) (huseen.trans hsseen.symm) ps

/-! ### The script in the state -/

/-- What stood in the script before a step that answers stands on the ports and in the script after it. -/
theorem prefix_inputs_of_step {s t : State} (h : step s = .next t) {ps : List Ports} (hps : ps <+: s.script) :
    ps <+: t.ports :: t.script := by
  obtain ⟨w, hw, rfl⟩ : ∃ w : State, w.script = s.script ∧ t = nextInputs w := by
    rcases step_next_cases h with ⟨-, rfl⟩ | ⟨-, -, i, w, -, he, rfl⟩
    · exact ⟨_, applyReset_script s, rfl⟩
    · exact ⟨w, by rw [exec_next he, State.setRegs_script], rfl⟩
  cases hscript : w.script with
  | nil =>
    rw [← hw, hscript, List.prefix_nil] at hps
    exact hps ▸ List.nil_prefix
  | cons q qs =>
    rw [nextInputs_of_script w q qs hscript]
    rwa [← hw, hscript] at hps

theorem core_run_of_next {M : Host.Core} {k : Nat} {s t : M.State} (h : M.step s = .next t) :
    M.run (k + 1) s = M.run k t := by
  rw [Host.Core.run, h]

theorem core_run_of_refused {M : Host.Core} {k : Nat} {s : M.State} {r : M.Refusal} (h : M.step s = .refused r) :
    M.run (k + 1) s = .refused r := by
  rw [Host.Core.run, h]

/-- A run over the inputs that stand in `v` is the run that presents them to a state with the same registers. -/
theorem runOn_sameOutcome_core_run {ps : List Ports} {s v : State} (hregs : v.regs = s.regs)
    (hseen : v.rstSeen = s.rstSeen) (hps : ps <+: v.ports :: v.script) :
    SameOutcome id (runOn ps s) (Host.Core.run Sys2Proof.core ps.length v) := by
  induction ps generalizing s v with
  | nil => exact ⟨hregs, hseen⟩
  | cons p ps ih =>
    obtain ⟨rfl, hrest⟩ := List.cons_prefix_cons.1 hps
    have hstep : SameOutcome id (stepOn v.ports s) (step v) := stepOn_sameOutcome hregs hseen v.ports
    rw [List.length_cons]
    rcases sameOutcome_cases hstep with ⟨s', v', hs, hv, hregs', hseen'⟩ | ⟨r, hs, hv⟩
    · rw [runOn_cons_next hs, core_run_of_next (M := Sys2Proof.core) hv]
      exact ih hregs' hseen' (prefix_inputs_of_step hv hrest)
    · rw [runOn_cons_refused hs, core_run_of_refused (M := Sys2Proof.core) hv]
      rfl

/-- Settles O9: the presented inputs stand on the ports and in the script, and move on by one in each step. -/
theorem scriptedRunIsThePresentedRun : Obligations.ScriptedRunIsThePresentedRun := by
  intro ps s
  cases ps with
  | nil => exact ⟨rfl, rfl⟩
  | cons p ps => exact runOn_sameOutcome_core_run rfl rfl (List.prefix_append (p :: ps) s.script)

/-! ### Ports that do not matter -/

/-- Settles O26: only a poll step of a running measurement reads the lines, and the step is none. -/
theorem commandStepsIgnoreTheLines : Obligations.CommandStepsIgnoreTheLines := by
  intro s clk data h
  refine step_setPorts_sameOutcome (p := { s.ports with clk := clk, data := data }) rfl rfl fun hr i hd =>
    exec_setPorts_sameOutcome (fun hnop => ?_) fun _ => rfl
  have hcmd : s.ports.cmd = 0x00 := by rw [← encode_of_decode hd, hnop]; rfl
  rcases h with hrst | hne | hidle
  · rw [hr] at hrst; cases hrst
  · exact absurd hcmd hne
  · rw [poll_idle hidle, poll_idle hidle]

/-- Only RST and a valid MEASURE write a latch (R29 to R31). -/
theorem step_latches_eq {s t : State} (h : step s = .next t) (hr : s.ports.rst = false) (hm : ¬ StartsMeasurement s) :
    t.regs.clkPol = s.regs.clkPol ∧ t.regs.dataPol = s.regs.dataPol ∧ t.regs.lenIdx = s.regs.lenIdx ∧
      t.regs.thresh = s.regs.thresh := by
  cases (step_effect h).1 with
  | reset hr' _ => rw [hr] at hr'; cases hr'
  | measure hr hc hp hi hth _ => exact absurd ⟨⟨hr, hc, hi, hth⟩, hp⟩ hm
  | _ => simp [*]

/-- Settles O45: the latches have two writers, and MEASURE alone reads the configuration ports. -/
theorem configurationEntersOnlyAtMeasure : Obligations.ConfigurationEntersOnlyAtMeasure := by
  refine ⟨fun s t => step_latches_eq, fun s cp dp li th h => ?_⟩
  refine step_setPorts_sameOutcome
    (p := { s.ports with cfgClkPol := cp, cfgDataPol := dp, cfgLenIdx := li, cfgThresh := th }) rfl rfl fun hr i hd =>
    exec_setPorts_sameOutcome (fun _ => rfl) fun hmeasure => ?_
  have hcmd : s.ports.cmd = 0x10 := by rw [← encode_of_decode hd, hmeasure]; rfl
  rcases h with hrst | hne
  · rw [hr] at hrst; cases hrst
  · exact absurd hcmd hne

/-! ### BUSY -/

/-- A measurement ends in a reset, by ABORT or by its completion only (R37). -/
theorem step_busy_ends {s t : State} (h : step s = .next t) (hbusy : s.regs.phase ≠ .idle)
    (hidle : t.regs.phase = .idle) : s.ports.rst = true ∨ (s.ports.rst = false ∧ s.ports.cmd = 0x20) ∨ Completes s := by
  rcases step_next_cases h with ⟨hr, -⟩ | ⟨hr, -⟩
  · exact .inl hr
  rcases step_busy_cases h hbusy with hr' | hc | hpoll
  · exact .inl hr'
  · exact .inr (.inl ⟨hr, hc⟩)
  rw [step_regs_of_pollStep h hpoll] at hidle
  rcases poll_cases (p := s.ports) (r := s.regs) with he | ⟨-, -, he⟩ | ⟨-, -, he⟩ | ⟨-, -, he⟩ | ⟨hp, hl, he⟩ <;>
    rw [he] at hidle
  · exact absurd hidle hbusy
  · cases hidle
  · rw [syncFall_phase] at hidle; split at hidle <;> cases hidle
  · cases hidle
  · rw [countFall_phase] at hidle
    refine .inr (.inr ⟨hpoll, hp, (logicalClock_false_iff _ _).1 hl, by_contra fun hshort => ?_⟩)
    rw [if_neg hshort] at hidle
    cases hidle

/-- Settles O54: a valid MEASURE alone leaves IDLE, and the three ends alone return to it. -/
theorem busyChangesOnlyAtItsTransitions : Obligations.BusyChangesOnlyAtItsTransitions := by
  intro s t h
  simp only [busyOut, busy_false_iff, busy_iff]
  refine ⟨fun hidle => ⟨fun hbusy => ?starts, fun hm => ?started⟩, fun hbusy => ⟨step_busy_ends h hbusy, ?ended⟩⟩
  case starts => exact by_contra fun hm => hbusy (step_idle_phase h hidle hm)
  case started => rw [step_regs_of_startsMeasurement h hm]; exact nofun
  case ended =>
    rintro (hr | ⟨hr, hc⟩ | hcompletes)
    · rw [step_regs_of_rst h hr]; rfl
    · rw [step_regs_of_exec h (i := .abort) hr hc (exec_abort_busy hbusy)]; rfl
    · rw [step_regs_of_completes h hcompletes]; rfl

end Sys2Proof.Machine
end

section
/-! PROOFS. Measurements over a stream (R146 to R148, R168, R169, R173): the registers after every clock cycle, by one
induction over the cycles, and what the stream has to be for the core to lock. -/

namespace Sys2Proof.Machine

/-! ### Matches and mismatches of a stream -/

section
variable {f : Nat → Bool}

theorem consecutiveMatches_succ (f : Nat → Bool) (n : Nat) :
    consecutiveMatches f (n + 1) = if f n = seqBit n then consecutiveMatches f n + 1 else 0 := rfl

theorem consecutiveMatches_succ_le {th n : Nat} (h : consecutiveMatches f n < th) :
    consecutiveMatches f (n + 1) ≤ th := by
  rw [consecutiveMatches_succ]; split <;> omega

theorem consecutiveMatches_le (f : Nat → Bool) (n : Nat) : consecutiveMatches f n ≤ n := by
  induction n with
  | zero => exact le_rfl
  | succ n ih => rw [consecutiveMatches_succ]; split <;> omega

/-- The count grows by at most 1 a bit, so it is below a threshold that it has not met. -/
theorem consecutiveMatches_lt {th n : Nat} (h : ∀ k, k ≤ n → consecutiveMatches f k ≠ th) :
    consecutiveMatches f n < th := by
  induction n with
  | zero => exact Nat.pos_of_ne_zero (h 0 le_rfl).symm
  | succ n ih =>
    have hlt := ih fun k hk => h k (Nat.le_succ_of_le hk)
    have hne := h (n + 1) le_rfl
    rw [consecutiveMatches_succ] at hne ⊢
    split at hne <;> rename_i hbit
    · rw [if_pos hbit]; omega
    · rw [if_neg hbit]; omega

/-- The bits counted are matches. -/
theorem seqBit_of_consecutiveMatches {n j : Nat} (hj : n - consecutiveMatches f n ≤ j) (hlt : j < n) :
    f j = seqBit j := by
  induction n with
  | zero => exact absurd hlt (Nat.not_lt_zero j)
  | succ n ih =>
    rw [consecutiveMatches_succ] at hj
    split at hj
    · rcases Nat.lt_succ_iff_lt_or_eq.1 hlt with hlt' | rfl
      · exact ih (by omega) hlt'
      · assumption
    · omega

theorem consecutiveMatches_of_all_match {n : Nat} (h : ∀ k, k < n → f k = seqBit k) : consecutiveMatches f n = n := by
  induction n with
  | zero => rfl
  | succ n ih =>
    rw [consecutiveMatches_succ, if_pos (h n (Nat.lt_succ_self n)), ih fun k hk => h k (Nat.lt_succ_of_lt hk)]

theorem consecutiveMatches_of_none_match {n : Nat} (h : ∀ k, k < n → f k ≠ seqBit k) : consecutiveMatches f n = 0 := by
  cases n with
  | zero => rfl
  | succ n => rw [consecutiveMatches_succ, if_neg (h n (Nat.lt_succ_self n))]

/-- The sequence at a wrong offset never matches 16 bits in a row (R148). -/
theorem consecutiveMatches_lt_16_of_offset {d n : Nat} (hd : d % 28 ≠ 0) (h : ∀ k, k < n → f k = seqBit (k + d)) :
    consecutiveMatches f n < 16 := by
  by_contra! hge
  have hle := consecutiveMatches_le f n
  obtain ⟨j, hj, hne⟩ := exists_seqBit_ne_of_offset hd (n - consecutiveMatches f n)
  have hlt : n - consecutiveMatches f n + j < n := by omega
  exact hne ((h _ hlt).symm.trans (seqBit_of_consecutiveMatches (Nat.le_add_right _ j) hlt))

theorem mismatches_le (f : Nat → Bool) (S n : Nat) : mismatches f S n ≤ n := by
  induction n with
  | zero => exact le_rfl
  | succ n ih => rw [mismatches]; split <;> omega

/-- Among the first `len` sync bits of the stream the S-th is the one that locks; with `len` below S none of them does. -/
def LocksWithin (f : Nat → Bool) (th len S : Nat) : Prop :=
  (∀ n, n < S → consecutiveMatches f n ≠ th) ∧ (S ≤ len → consecutiveMatches f S = th)

theorem LocksAfter.locksWithin {th S : Nat} (h : LocksAfter f th S) (len : Nat) : LocksWithin f th len S :=
  ⟨h.2, fun _ => h.1⟩

theorem locksWithin_of_never {th len : Nat} (h : ∀ n, n ≤ len → consecutiveMatches f n ≠ th) :
    LocksWithin f th len (len + 1) :=
  ⟨fun n hn => h n (Nat.lt_succ_iff.1 hn), fun hle => absurd hle (Nat.not_succ_le_self len)⟩

end

/-! ### The registers after n clock cycles -/

section
variable (m : Ports) (f : Nat → Bool)

/-- The registers in LOCKING after n sync bits, none of which has locked. -/
def lockingRegs (n : Nat) : Regs :=
  { lfsr := seqState n, matchCnt := BitVec.ofNat 16 (consecutiveMatches f n), errBits := 0, countBits := 0,
    phase := .syncWaitRise, lock := false, result := .none, clkPol := m.cfgClkPol, dataPol := m.cfgDataPol,
    lenIdx := m.cfgLenIdx, thresh := m.cfgThresh }

/-- The registers after S sync bits, the last of which has locked, and n counted bits. -/
def countingRegs (S n : Nat) : Regs :=
  { lfsr := seqState (S + n), matchCnt := m.cfgThresh, errBits := BitVec.ofNat 16 (mismatches f S n),
    countBits := BitVec.ofNat 16 n, phase := .countWaitRise, lock := true, result := .none, clkPol := m.cfgClkPol,
    dataPol := m.cfgDataPol, lenIdx := m.cfgLenIdx, thresh := m.cfgThresh }

/-- The registers of a measurement that locks with its S-th sync bit, after n clock cycles. -/
def measureRegs (S n : Nat) : Regs :=
  if n < S then lockingRegs m f n
  else if n - S < (lengthAt m.cfgLenIdx).toNat then countingRegs m f S (n - S)
  else endMeasurement .complete (countingRegs m f S (n - S))

theorem measureRegs_locking {S n : Nat} (h : n < S) : measureRegs m f S n = lockingRegs m f n := if_pos h

theorem measureRegs_counting {S n : Nat} (h : n < (lengthAt m.cfgLenIdx).toNat) :
    measureRegs m f S (S + n) = countingRegs m f S n := by
  rw [measureRegs, if_neg (Nat.not_lt.2 (Nat.le_add_right S n)), Nat.add_sub_cancel_left, if_pos h]

theorem measureRegs_complete (S : Nat) : measureRegs m f S (S + (lengthAt m.cfgLenIdx).toNat) =
    endMeasurement .complete (countingRegs m f S (lengthAt m.cfgLenIdx).toNat) := by
  rw [measureRegs, if_neg (Nat.not_lt.2 (Nat.le_add_right S _)), Nat.add_sub_cancel_left, if_neg (Nat.lt_irrefl _)]

/-- Whatever the bits were, the LFSR is state n of the sequence. -/
theorem measureRegs_lfsr (S n : Nat) : (measureRegs m f S n).lfsr = seqState n := by
  unfold measureRegs
  split
  · rfl
  · have hn : S + (n - S) = n := by omega
    split
    · rw [countingRegs, hn]
    · rw [endMeasurement_lfsr, countingRegs, hn]

theorem measureRegs_clkPol (S n : Nat) : (measureRegs m f S n).clkPol = m.cfgClkPol := by
  unfold measureRegs; split
  · rfl
  · split <;> rfl

/-- Before the last counted bit the core waits for a rise. -/
theorem measureRegs_phase {S n : Nat} (h : n < S + (lengthAt m.cfgLenIdx).toNat) :
    (measureRegs m f S n).phase = .syncWaitRise ∨ (measureRegs m f S n).phase = .countWaitRise := by
  unfold measureRegs
  split
  · exact .inl rfl
  · rw [if_pos (by omega)]; exact .inr rfl

/-! ### One cycle -/

/-- A number up to the value of a register is that value exactly when the numbers agree. -/
theorem ofNat_eq_iff_of_le {n : Nat} {v : BitVec 16} (h : n ≤ v.toNat) : BitVec.ofNat 16 n = v ↔ n = v.toNat := by
  rw [← BitVec.toNat_inj, BitVec.toNat_ofNat, Nat.mod_eq_of_lt (Nat.lt_of_le_of_lt h v.isLt)]

variable {m f} {n : Nat}

/-- The first step with lc = 1 of a sync cycle. -/
theorem poll_high_lockingRegs (held : Ports) (d : Bool) :
    poll (pollPorts held (!m.cfgClkPol) d) (lockingRegs m f n) = syncBit (d != m.cfgDataPol) (lockingRegs m f n) :=
  poll_syncBit_of_clk rfl (Bool.not_ne_self _)

theorem syncBit_lockingRegs_matchCnt :
    (syncBit (f n) (lockingRegs m f n)).matchCnt = BitVec.ofNat 16 (consecutiveMatches f (n + 1)) := by
  rw [syncBit_matchCnt, consecutiveMatches_succ, apply_ite (BitVec.ofNat 16), ← Count.ofNat_add_one]
  rfl

/-- The SYNC-BIT locks exactly when the matches have become THRESH. -/
theorem syncBit_lockingRegs_lock (h : consecutiveMatches f n < m.cfgThresh.toNat) :
    (syncBit (f n) (lockingRegs m f n)).lock = decide (consecutiveMatches f (n + 1) = m.cfgThresh.toNat) := by
  have hle := consecutiveMatches_succ_le h
  rw [syncBit_lock, syncBit_lockingRegs_matchCnt, Bool.eq_iff_iff, decide_eq_true_iff, ← ofNat_eq_iff_of_le hle]
  exact beq_iff_eq

/-- A sync cycle: the next sync bit, or the counted bits (R141 to R144). -/
theorem syncFall_syncBit_lockingRegs (h : consecutiveMatches f n < m.cfgThresh.toNat) :
    syncFall (syncBit (f n) (lockingRegs m f n)) =
      if consecutiveMatches f (n + 1) = m.cfgThresh.toNat then countingRegs m f (n + 1) 0
      else lockingRegs m f (n + 1) := by
  have hlock := syncBit_lockingRegs_lock h
  have hle := consecutiveMatches_succ_le h
  rw [syncBit_lock] at hlock
  rw [syncBit_eq, hlock, syncBit_lockingRegs_matchCnt]
  by_cases heq : consecutiveMatches f (n + 1) = m.cfgThresh.toNat
  · rw [if_pos heq, decide_eq_true heq, (ofNat_eq_iff_of_le hle).2 heq]; rfl
  · rw [if_neg heq, decide_eq_false heq]; rfl

/-- A counted cycle: the next counted bit, or the completion at TOTAL (R164, R165). -/
theorem countFall_countBit_countingRegs {S : Nat} (h : n < (lengthAt m.cfgLenIdx).toNat) :
    countFall (countBit (f (S + n)) (countingRegs m f S n)) =
      if n + 1 = (lengthAt m.cfgLenIdx).toNat then endMeasurement .complete (countingRegs m f S (n + 1))
      else countingRegs m f S (n + 1) := by
  have hbit : (countBit (f (S + n)) (countingRegs m f S n)).errBits = BitVec.ofNat 16 (mismatches f S (n + 1)) := by
    rw [countBit_errBits, mismatches]
    by_cases heq : f (S + n) = seqBit (S + n)
    · rw [if_pos heq]; exact if_pos heq
    · rw [if_neg heq, ← Count.ofNat_add_one]; exact if_neg heq
  have hnext : countBit (f (S + n)) (countingRegs m f S n) = (countingRegs m f S (n + 1)).setPhase .countWaitFall := by
    rw [countBit_eq, hbit]
    have hcount : (countingRegs m f S n).countBits + 1 = BitVec.ofNat 16 (n + 1) := Count.ofNat_add_one n
    rw [hcount]
    rfl
  have hfull : (countingRegs m f S (n + 1)).countBits = total (countingRegs m f S (n + 1)) ↔
      n + 1 = (lengthAt m.cfgLenIdx).toNat := ofNat_eq_iff_of_le h
  rw [hnext]
  split
  · exact countFall_of_full (hfull.2 ‹_›)
  · exact countFall_of_not_full (mt hfull.1 ‹_›)

variable {s : State} {held : Ports} {len S : Nat}

/-- One clock cycle of the measurement. -/
theorem runOn_cycle_measureRegs {b : PolledBit} (hlocks : LocksWithin f m.cfgThresh.toNat len S) (hlen : n < len)
    (hpos : 0 < (lengthAt m.cfgLenIdx).toNat) (hend : n < S + (lengthAt m.cfgLenIdx).toNat)
    (hb : f n = (b.bit != m.cfgDataPol)) (hs : s.rstSeen = true)
    (hregs : s.regs = measureRegs m f S n) : ∃ t, runOn (b.steps held m.cfgClkPol) s = .next t ∧ t.rstSeen = true ∧
      t.regs = measureRegs m f S (n + 1) := by
  obtain ⟨hno, hlock⟩ := hlocks
  rcases Nat.lt_or_ge n S with hn | hn
  · rw [measureRegs_locking m f hn] at hregs
    obtain ⟨t, ht, hseen, htregs⟩ := runOn_syncCycle (held := held) (cp := m.cfgClkPol) b hs (by rw [hregs]; rfl)
      (by rw [hregs]; rfl)
    have hbit : (b.bit != s.regs.dataPol) = f n := by rw [hb, hregs]; rfl
    have hlt : consecutiveMatches f n < m.cfgThresh.toNat :=
      consecutiveMatches_lt fun k hk => hno k (Nat.lt_of_le_of_lt hk hn)
    refine ⟨t, ht, hseen, ?_⟩
    rw [htregs, hbit, hregs, syncFall_syncBit_lockingRegs hlt]
    rcases Nat.lt_or_eq_of_le (Nat.succ_le_of_lt hn) with hn' | rfl
    · rw [if_neg (hno _ hn'), measureRegs_locking m f hn']
    · rw [if_pos (hlock hlen), ← measureRegs_counting m f hpos]
  · obtain ⟨k, rfl⟩ := Nat.exists_eq_add_of_le hn
    have hk : k < (lengthAt m.cfgLenIdx).toNat := by omega
    rw [measureRegs_counting m f hk] at hregs
    obtain ⟨t, ht, hseen, htregs⟩ := runOn_countCycle (held := held) (cp := m.cfgClkPol) b hs (by rw [hregs]; rfl)
      (by rw [hregs]; rfl)
    have hbit : (b.bit != s.regs.dataPol) = f (S + k) := by rw [hb, hregs]; rfl
    refine ⟨t, ht, hseen, ?_⟩
    rw [htregs, hbit, hregs, countFall_countBit_countingRegs hk, Nat.add_assoc]
    rcases Nat.lt_or_eq_of_le (Nat.succ_le_of_lt hk) with hk' | heq
    · rw [if_neg (Nat.ne_of_lt hk'), measureRegs_counting m f hk']
    · have heq' : k + 1 = (lengthAt m.cfgLenIdx).toNat := heq
      rw [if_pos heq', heq', measureRegs_complete]

end

/-! ### The run of a measurement -/

theorem polledSteps_append (held : Ports) (cp : Bool) (as bs : List PolledBit) :
    polledSteps held cp (as ++ bs) = polledSteps held cp as ++ polledSteps held cp bs := List.flatMap_append

theorem polledSteps_singleton (held : Ports) (cp : Bool) (b : PolledBit) :
    polledSteps held cp [b] = b.steps held cp := List.flatMap_singleton _ _

/-- The sampled bit of a cycle is its bit under DATA_POL (R121, R124). -/
theorem sampledAt_of_lt (dp : Bool) {bs : List PolledBit} {n : Nat} (h : n < bs.length) :
    sampledAt dp bs n = (bs[n].bit != dp) := by
  rw [sampledAt, List.getElem?_eq_getElem h]
  rfl

section
variable {s : State} {m held : Ports} {bs : List PolledBit} {S n : Nat} (hm : ValidMeasure m)
  (hlocks : LocksWithin (sampledAt m.cfgDataPol bs) m.cfgThresh.toNat bs.length S)
include hm

/-- A valid MEASURE selects an entry of the table, none of which is 0. -/
theorem ValidMeasure.total_pos : 0 < (lengthAt m.cfgLenIdx).toNat := by
  obtain ⟨-, -, hi, -⟩ := hm
  exact Nat.lt_of_lt_of_le (by decide) (lengthAt_ge _ hi)

/-- A valid MEASURE asks for at least one matching bit. -/
theorem ValidMeasure.thresh_pos : 0 < m.cfgThresh.toNat := by
  obtain ⟨-, -, -, hth⟩ := hm
  exact Thresh.ne_zero_iff.1 hth

include hlocks

/-- The lock takes at least one sync bit. -/
theorem LocksWithin.pos : 0 < S := by
  obtain ⟨-, hlock⟩ := hlocks
  by_contra hS
  obtain rfl : S = 0 := Nat.eq_zero_of_not_pos hS
  exact absurd (hlock (Nat.zero_le _)) (Nat.ne_of_lt hm.thresh_pos)

/-- A valid MEASURE in IDLE leaves the registers of a measurement that has sampled no bit, whatever stood there. -/
theorem startMeasurement_eq_measureRegs (r : Regs) :
    startMeasurement m r = measureRegs m (sampledAt m.cfgDataPol bs) S 0 := by
  rw [measureRegs_locking _ _ (hlocks.pos hm), startMeasurement_eq]
  rfl

/-- After n clock cycles of the stream, by induction over the cycles. -/
theorem runOn_polledSteps_take (hlen : n ≤ bs.length) (hend : n ≤ S + (lengthAt m.cfgLenIdx).toNat)
    (hs : s.rstSeen = true) (hregs : s.regs = measureRegs m (sampledAt m.cfgDataPol bs) S 0) :
    ∃ t, runOn (polledSteps held m.cfgClkPol (bs.take n)) s = .next t ∧ t.rstSeen = true ∧
      t.regs = measureRegs m (sampledAt m.cfgDataPol bs) S n := by
  induction n with
  | zero => exact ⟨s, rfl, hs, hregs⟩
  | succ n ih =>
    obtain ⟨u, hu, huseen, huregs⟩ := ih (Nat.le_of_succ_le hlen) (Nat.le_of_succ_le hend)
    obtain ⟨t, ht, htseen, htregs⟩ := runOn_cycle_measureRegs (held := held) hlocks hlen hm.total_pos hend
      (sampledAt_of_lt m.cfgDataPol hlen) huseen huregs
    refine ⟨t, ?_, htseen, htregs⟩
    rw [List.take_succ_eq_append_getElem hlen, polledSteps_append, polledSteps_singleton, runOn_append hu, ht]

variable (hs : s.rstSeen = true) (hidle : s.regs.phase = .idle)
include hs hidle

/-- The registers of a measurement after n clock cycles of its stream, whatever the registers were before the MEASURE. -/
theorem runOn_measure_stream_take (low : List Bool) (hlen : n ≤ bs.length)
    (hend : n ≤ S + (lengthAt m.cfgLenIdx).toNat) :
    ∃ t, runOn (m :: streamSteps held m.cfgClkPol low (bs.take n)) s = .next t ∧ t.rstSeen = true ∧
      t.regs = measureRegs m (sampledAt m.cfgDataPol bs) S n := by
  have ⟨hr, hc, hi, hth⟩ := hm
  obtain ⟨u, hu, huseen, huregs⟩ := stepOn_measure hs hidle hr hc hi hth
  have hphase : u.regs.phase = .syncWaitRise := by rw [huregs]; rfl
  have hclkPol : u.regs.clkPol = m.cfgClkPol := by rw [huregs]; rfl
  obtain ⟨v, hvseen, hvregs, hv⟩ := runOn_streamSteps (held := held) huseen (.inl hphase) hclkPol low
  rw [huregs, startMeasurement_eq_measureRegs hm hlocks] at hvregs
  rw [runOn_cons_next hu, hv]
  exact runOn_polledSteps_take hm hlocks hlen hend hvseen hvregs

/-- The same over the whole stream. -/
theorem runOn_measure_stream (low : List Bool) (hend : bs.length ≤ S + (lengthAt m.cfgLenIdx).toNat) :
    ∃ t, runOn (m :: streamSteps held m.cfgClkPol low bs) s = .next t ∧ t.rstSeen = true ∧
      t.regs = measureRegs m (sampledAt m.cfgDataPol bs) S bs.length := by
  have h := runOn_measure_stream_take (held := held) hm hlocks hs hidle low le_rfl hend
  rwa [List.take_length] at h

end

/-- A stream that never locks leaves the core in LOCKING. -/
theorem runOn_measure_never_locks {s : State} {m held : Ports} {low : List Bool} {bs : List PolledBit}
    (hs : s.rstSeen = true) (hidle : s.regs.phase = .idle) (hm : ValidMeasure m)
    (hnever : ∀ n, n ≤ bs.length → consecutiveMatches (sampledAt m.cfgDataPol bs) n ≠ m.cfgThresh.toNat) :
    ∃ t, runOn (m :: streamSteps held m.cfgClkPol low bs) s = .next t ∧
      t.regs = lockingRegs m (sampledAt m.cfgDataPol bs) bs.length := by
  obtain ⟨t, ht, -, hregs⟩ := runOn_measure_stream (held := held) hm (locksWithin_of_never hnever) hs hidle low
    (by omega)
  exact ⟨t, ht, hregs.trans (measureRegs_locking _ _ (Nat.lt_succ_self _))⟩

/-! ### The sync phase -/

/-- Settles O30: the advance discards the override, so the LFSR goes through the sequence whether bits match or not. -/
theorem syncOverrideIsUnobservable : Obligations.SyncOverrideIsUnobservable := by
  refine ⟨fun s hp hclk hne => ?mismatch, fun s m held low bs hs hidle hm hno => ?sequence⟩
  case mismatch =>
    rw [exec_nop_syncBit hp hclk, syncBit_eq, syncBit_matchCnt, peek_eq, if_neg hne]
    rfl
  case sequence =>
    obtain ⟨S, hlocks, hend⟩ : ∃ S, LocksWithin (sampledAt m.cfgDataPol bs) m.cfgThresh.toNat bs.length S ∧
        bs.length ≤ S := by
      by_cases hlast : consecutiveMatches (sampledAt m.cfgDataPol bs) bs.length = m.cfgThresh.toNat
      · exact ⟨bs.length, ⟨hno, fun _ => hlast⟩, le_rfl⟩
      · refine ⟨bs.length + 1, locksWithin_of_never fun n hn => ?_, Nat.le_succ _⟩
        rcases Nat.lt_or_eq_of_le hn with hlt | rfl
        · exact hno n hlt
        · exact hlast
    obtain ⟨t, ht, -, hregs⟩ := runOn_measure_stream (held := held) hm hlocks hs hidle low (by omega)
    exact ⟨t, ht, by rw [hregs, measureRegs_lfsr]⟩

/-- Settles O31: a matching stream has n matches after n bits, so the THRESH-th bit locks, in its SYNC-BIT step. -/
theorem matchingStreamLocksAtTheThreshold : Obligations.MatchingStreamLocksAtTheThreshold := by
  intro s m held low bs last hs hidle hm hth hmatch
  have hall : ∀ n, n ≤ bs.length + 1 →
      consecutiveMatches (sampledAt m.cfgDataPol (bs ++ [last])) n = n := fun n hn =>
    consecutiveMatches_of_all_match fun k hk => hmatch k (by omega)
  have hlength : (bs ++ [last]).length = bs.length + 1 := List.length_append
  have hlocks : LocksWithin (sampledAt m.cfgDataPol (bs ++ [last])) m.cfgThresh.toNat (bs ++ [last]).length
      (bs.length + 1) :=
    ⟨fun n hn => by rw [hall n (by omega)]; omega, fun _ => by rw [hall _ le_rfl, hth]⟩
  obtain ⟨t, ht, hseen, hregs⟩ := runOn_measure_stream_take (held := held) hm hlocks hs hidle low
    (n := bs.length) (by omega) (by omega)
  rw [List.take_left] at ht
  rw [measureRegs_locking _ _ (Nat.lt_succ_self _)] at hregs
  refine ⟨⟨t, ht, by rw [hregs]; rfl, by rw [hregs]; rfl⟩, ?lastRise, ?handOff⟩
  case lastRise =>
    obtain ⟨u, hu, -, huregs⟩ := stepOn_pollPorts (held := held) hseen (!m.cfgClkPol) last.bit
    have hbit : (last.bit != m.cfgDataPol) = sampledAt m.cfgDataPol (bs ++ [last]) bs.length := by
      rw [sampledAt_of_lt m.cfgDataPol (by omega), List.getElem_concat_length rfl]
    have hsync : u.regs = syncBit (sampledAt m.cfgDataPol (bs ++ [last]) bs.length)
        (lockingRegs m (sampledAt m.cfgDataPol (bs ++ [last])) bs.length) := by
      rw [huregs, hregs, poll_high_lockingRegs, hbit]
    refine ⟨u, ?_, ?_, ?_, ?_, ?_⟩
    · rw [← List.cons_append, runOn_append ht, runOn_cons_next hu, runOn_nil]
    · rw [hsync, syncBit_lockingRegs_lock (by rw [hall _ (Nat.le_succ _)]; omega), hall _ le_rfl, hth]
      exact decide_eq_true rfl
    · rw [hsync, syncBit_phase]
    · rw [hsync, syncBit_lockingRegs_matchCnt, hall _ le_rfl, hth]
      exact (ofNat_eq_iff_of_le le_rfl).2 rfl
    · rw [hsync, syncBit_lfsr, ← hth]
      rfl
  case handOff =>
    obtain ⟨v, hv, -, hvregs⟩ := runOn_measure_stream (held := held) hm hlocks hs hidle low (by omega)
    rw [hlength, measureRegs_counting _ _ (n := 0) hm.total_pos] at hvregs
    exact ⟨v, hv, by rw [hvregs]; rfl, by rw [hvregs]; rfl, by rw [hvregs]; rfl, by rw [hvregs, ← hth]; rfl⟩

/-- Settles O32: no bit matches, so the count stays 0, which no valid THRESH is. -/
theorem invertedStreamNeverLocks : Obligations.InvertedStreamNeverLocks := by
  intro s m held low bs hs hidle hm hnone
  have hzero : ∀ n, n ≤ bs.length → consecutiveMatches (sampledAt m.cfgDataPol bs) n = 0 := fun n hn =>
    consecutiveMatches_of_none_match fun k hk => hnone k (Nat.lt_of_lt_of_le hk hn)
  obtain ⟨t, ht, hregs⟩ := runOn_measure_never_locks (held := held) (low := low) hs hidle hm fun n hn => by
    rw [hzero n hn]; exact Nat.ne_of_lt hm.thresh_pos
  refine ⟨t, ht, ?_⟩
  rw [hregs, lockingRegs, hzero _ le_rfl]
  exact ⟨rfl, rfl, rfl, rfl, rfl, rfl⟩

/-- Settles O34: the sequence at a wrong offset never matches 16 bits in a row. -/
theorem wrongOffsetNeverLocksFromThreshold16 : Obligations.WrongOffsetNeverLocksFromThreshold16 := by
  intro s m held low bs d hs hidle hm hth hd hoffset
  obtain ⟨t, ht, hregs⟩ := runOn_measure_never_locks (held := held) (low := low) hs hidle hm fun n hn => by
    have hlt := consecutiveMatches_lt_16_of_offset hd fun k hk => hoffset k (Nat.lt_of_lt_of_le hk hn)
    omega
  exact ⟨t, ht, by rw [hregs]; rfl, by rw [hregs]; rfl⟩

/-! ### The count phase -/

/-- Settles O41: the registers after S + n cycles, n of them counted. -/
theorem countPhaseHasNoEarlyEnd : Obligations.CountPhaseHasNoEarlyEnd := by
  intro s m held low bs S n hs hidle hm hlocks hlen hn
  obtain ⟨t, ht, -, hregs⟩ := runOn_measure_stream (held := held) hm (hlocks.locksWithin _) hs hidle low (by omega)
  refine ⟨t, ht, ?_⟩
  rw [hregs, hlen, measureRegs_counting _ _ hn]
  rfl

/-- Settles O42: the registers after S + TOTAL cycles. -/
theorem completedMeasurementCountsTheErrors : Obligations.CompletedMeasurementCountsTheErrors := by
  intro s m held low bs S hs hidle hm hlocks hlen
  refine ⟨mismatches_le _ S _, ?_⟩
  obtain ⟨t, ht, -, hregs⟩ := runOn_measure_stream (held := held) hm (hlocks.locksWithin _) hs hidle low (by omega)
  refine ⟨t, ht, ?_⟩
  have htotal : BitVec.ofNat 16 (lengthAt m.cfgLenIdx).toNat = lengthAt m.cfgLenIdx := (ofNat_eq_iff_of_le le_rfl).2 rfl
  rw [hregs, hlen, measureRegs_complete, countingRegs, htotal]
  rfl

/-! ### One step a level -/

/-- A cycle of one step a level takes two steps. -/
theorem length_polledSteps_idealBit (held : Ports) (cp : Bool) (ds : List Bool) :
    (polledSteps held cp (ds.map idealBit)).length = 2 * ds.length := by
  induction ds with
  | nil => rfl
  | cons d ds ih =>
    rw [List.map_cons, ← List.singleton_append, polledSteps_append, polledSteps_singleton, List.length_append, ih,
      List.length_cons]
    show 2 + _ = _
    omega

theorem length_polledSteps_take (held : Ports) (cp : Bool) {ds : List Bool} {k : Nat} (h : k ≤ ds.length) :
    (polledSteps held cp ((ds.map idealBit).take k)).length = 2 * k := by
  rw [← List.map_take, length_polledSteps_idealBit, List.length_take_of_le h]

theorem take_even_polledSteps_idealBit (held : Ports) (cp : Bool) {ds : List Bool} {k : Nat} (h : k ≤ ds.length) :
    (polledSteps held cp (ds.map idealBit)).take (2 * k) = polledSteps held cp ((ds.map idealBit).take k) := by
  conv_lhs => rw [← List.take_append_drop k (ds.map idealBit), polledSteps_append]
  rw [← length_polledSteps_take held cp h, List.take_left]

theorem take_odd_polledSteps_idealBit (held : Ports) (cp : Bool) {ds : List Bool} {k : Nat} (h : k < ds.length) :
    (polledSteps held cp (ds.map idealBit)).take (2 * k + 1) =
      polledSteps held cp ((ds.map idealBit).take k) ++ [pollPorts held (!cp) ds[k]] := by
  conv_lhs => rw [← List.take_append_drop k (ds.map idealBit), polledSteps_append]
  rw [← length_polledSteps_take held cp (Nat.le_of_lt h), List.take_length_add_append,
    List.drop_eq_getElem_cons (by rwa [List.length_map]), List.getElem_map]
  rfl

theorem busy_of_rise_wait {r : Regs} (h : r.phase = .syncWaitRise ∨ r.phase = .countWaitRise) : busy r = true := by
  rcases h with h | h <;> simp [busy, h]

theorem busy_of_fall_wait {r : Regs} (h : r.phase = .syncWaitFall ∨ r.phase = .countWaitFall) : busy r = true := by
  rcases h with h | h <;> simp [busy, h]

/-- Settles O43: the last of the S + TOTAL cycles completes; before it the core is in a rise wait after an even number of
poll steps and in a fall wait after an odd one. -/
theorem idealClockCompletesInKnownSteps : Obligations.IdealClockCompletesInKnownSteps := by
  intro s m held ds S hs hidle hm hlocks hlen
  have hlength : (ds.map idealBit).length = S + (lengthAt m.cfgLenIdx).toNat := by rw [List.length_map, hlen]
  have hcycles (k : Nat) (hk : k ≤ S + (lengthAt m.cfgLenIdx).toNat) :
      ∃ t, runOn (m :: polledSteps held m.cfgClkPol ((ds.map idealBit).take k)) s = .next t ∧ t.rstSeen = true ∧
        t.regs = measureRegs m (sampledAt m.cfgDataPol (ds.map idealBit)) S k :=
    runOn_measure_stream_take (held := held) hm (hlocks.locksWithin _) hs hidle [] (by omega) hk
  refine ⟨?steps, ?completes, fun n hpos hlt => ?busy⟩
  case steps => rw [List.length_cons, length_polledSteps_idealBit, hlen, Nat.add_comm]
  case completes =>
    obtain ⟨t, ht, -, hregs⟩ := hcycles _ le_rfl
    rw [← hlength, List.take_length] at ht
    rw [measureRegs_complete] at hregs
    exact ⟨t, ht, by rw [busyOut, hregs]; rfl, by rw [hregs]; rfl⟩
  case busy =>
    obtain ⟨j, rfl⟩ := Nat.exists_eq_add_of_le' hpos
    rw [List.take_succ_cons]
    obtain ⟨k, rfl | rfl⟩ := Nat.even_or_odd' j
    · obtain ⟨t, ht, -, hregs⟩ := hcycles k (by omega)
      refine ⟨t, ?_, ?_⟩
      · rw [take_even_polledSteps_idealBit _ _ (by omega), ht]
      · rw [busyOut, hregs]
        exact busy_of_rise_wait (measureRegs_phase _ _ (by omega))
    · obtain ⟨t, ht, hseen, hregs⟩ := hcycles k (by omega)
      have hk : k < ds.length := by omega
      obtain ⟨u, hu, -, huregs⟩ := stepOn_pollPorts (held := held) hseen (!m.cfgClkPol) ds[k]
      refine ⟨u, ?_, ?_⟩
      · rw [take_odd_polledSteps_idealBit _ _ hk, ← List.cons_append, runOn_append ht, runOn_cons_next hu, runOn_nil]
      · have hclk : (pollPorts held (!m.cfgClkPol) ds[k]).clk ≠ t.regs.clkPol := by
          rw [hregs, measureRegs_clkPol]; exact Bool.not_ne_self _
        rw [busyOut, huregs]
        exact busy_of_fall_wait (poll_rise_phase (by rw [hregs]; exact measureRegs_phase _ _ (by omega)) hclk)

end Sys2Proof.Machine
end

section
/-! PROOFS. Command words, assembler text and the CONFIG view (R34, R72, R77). -/

namespace Sys2Proof.Machine

/-! ### Command words -/

/-- Settles O1: the seven words are the encodings of the seven commands. -/
theorem commandWordsDecodeAsTheTableSays : Obligations.CommandWordsDecodeAsTheTableSays :=
  ⟨decode_encode .nop, decode_encode .measure, decode_encode .abort, decode_encode .sgReset, decode_encode .sgAdvance,
    decode_encode (.sgForce false), decode_encode (.sgForce true)⟩

/-- Settles O2: the three fields of an encoded word are the command's. -/
theorem decodeInvertsEncode : Obligations.DecodeInvertsEncode := decode_encode

/-! ### Assembler text -/

/-- A comment is cut off from a text that holds none itself. -/
theorem withoutComment_append_comment {text : List Char} (h : ';' ∉ text) (comment : List Char) :
    withoutComment (text ++ ';' :: comment) = withoutComment text := by
  induction text with
  | nil => rfl
  | cons c cs ih =>
    obtain ⟨hc, hcs⟩ := List.ne_and_not_mem_of_not_mem_cons h
    rw [List.cons_append, withoutComment, withoutComment, if_neg (Ne.symm hc), if_neg (Ne.symm hc), ih hcs]

theorem semicolon_not_mem_assemblyText (i : Instr) : ';' ∉ assemblyText i := by
  cases i with
  | sgForce b => cases b <;> decide
  | _ => decide

/-- The seven texts have different words. -/
theorem assembleLine_assemblyText (i : Instr) : assembleLine (assemblyText i) = some i := by
  cases i with
  | sgForce b => cases b <;> decide
  | _ => decide

/-- Settles O5: the comment is cut off, and the words left are those of one of the seven texts. -/
theorem assemblyTextRoundTrip : Obligations.AssemblyTextRoundTrip := by
  refine fun i comment => ⟨assembleLine_assemblyText i, ?_⟩
  have hcut := withoutComment_append_comment (semicolon_not_mem_assemblyText i) comment
  rw [assembleLine, hcut]
  exact assembleLine_assemblyText i

/-! ### CONFIG -/

/-- A field of a word is `v` when its bits are. -/
theorem extractLsb'_eq_of_getLsbD {w n k : Nat} {x : BitVec w} {v : BitVec k}
    (h : ∀ i, i < k → x.getLsbD (n + i) = v.getLsbD i) : x.extractLsb' n k = v :=
  BitVec.eq_of_getLsbD_eq fun i hi => by rw [BitVec.getLsbD_extractLsb', h i hi, decide_eq_true hi, Bool.true_and]

section
variable (r : Regs)

/-- The bits of CONFIG, from the right end of R34's concatenation: the two polarities, then LEN_IDX. -/
theorem configView_getLsbD {i : Nat} (hi : i < 16) : (configView r).getLsbD i =
    if i = 0 then r.clkPol else if i = 1 then r.dataPol else r.lenIdx.getLsbD (i - 2) := by
  unfold configView
  simp only [BitVec.getLsbD_setWidth, BitVec.getLsbD_append, BitVec.getLsbD_ofBool, decide_eq_true hi, Bool.true_and]
  rcases i with _ | _ | i
  · simp
  · simp
  · simp

theorem configView_clkPol : (configView r).getLsbD 0 = r.clkPol := configView_getLsbD r (by decide)

theorem configView_dataPol : (configView r).getLsbD 1 = r.dataPol := configView_getLsbD r (by decide)

/-- From bit 2 on CONFIG holds LEN_IDX, and zeros above it. -/
theorem configView_getLsbD_lenIdx {i : Nat} (hi : i < 14) : (configView r).getLsbD (2 + i) = r.lenIdx.getLsbD i := by
  rw [configView_getLsbD r (by omega), if_neg (by omega), if_neg (by omega), Nat.add_sub_cancel_left]

theorem configView_lenIdx : (configView r).extractLsb' 2 3 = r.lenIdx :=
  extractLsb'_eq_of_getLsbD fun _ hi => configView_getLsbD_lenIdx r (by omega)

theorem configView_unused : (configView r).extractLsb' 5 11 = 0 :=
  extractLsb'_eq_of_getLsbD fun i hi => by
    rw [show 5 + i = 2 + (3 + i) by omega, configView_getLsbD_lenIdx r (by omega),
      BitVec.getLsbD_of_ge _ _ (Nat.le_add_right 3 i)]
    exact BitVec.getLsbD_zero.symm

end

/-- Settles O56: each field of R34 is read off the bits of the view, and the read port gives the latches whole. -/
theorem configFields : Obligations.ConfigFields := fun r =>
  ⟨configView_clkPol r, configView_dataPol r, configView_lenIdx r, configView_unused r, regRead_config r,
    regRead_thresh r, regRead_total r⟩

end Sys2Proof.Machine
end
